-- ==== Sys2Proof/Word.lean ====
section
/-! DEFINITION. The word and byte types of the block (00_scope.md R7, R9, R11). -/

namespace Sys2Proof

/-- A word: an unsigned 32-bit value (R7, R9); `+` on words is addition modulo 2^32 (R10, R170). -/
abbrev Word := BitVec 32

/-- A byte, 0..255 (R11). -/
abbrev Byte := BitVec 8

end Sys2Proof
end

