-- ==== Sys2Proof/Syntax.lean ====
section
/-! DEFINITION. The command set: one constructor per row of spec/opcode_table.json (30_encoding.md R141). -/

namespace Sys2Proof

/-- The 11 commands. Only ROUND has an operand, the 7-bit immediate N (R142). -/
inductive Instr where
  | nop
  | init
  | pad
  | sched
  | wvload
  | round (n : BitVec 7)
  | fold
  | compress
  | format
  | digest
  | sreset
  deriving DecidableEq, Repr

end Sys2Proof
end

