-- ==== Sys2Proof/WellFormed.lean ====
section
/-! DEFINITION. Which commands are legal (30_encoding.md R142). -/

namespace Sys2Proof

/-- R142: the round count of ROUND is 1..64; no other command has an operand. -/
def Instr.wellFormed : Instr → Bool
  | .nop => true
  | .init => true
  | .pad => true
  | .sched => true
  | .wvload => true
  | .round n => decide (1 ≤ n.toNat ∧ n.toNat ≤ 64)
  | .fold => true
  | .compress => true
  | .format => true
  | .digest => true
  | .sreset => true

end Sys2Proof
end

