-- ==== Sys2Proof/Decode.lean ====
section
/-! DEFINITION. The command word (30_encoding.md R140 to R147): its fields, the decoder and the encoder. -/

namespace Sys2Proof

/-- Why a word is no command (R144): every reason makes the command ILLEGAL (R146). -/
inductive Illegal where
  /-- RES1 or RES0 is not 0 (R143). -/
  | reservedBits
  /-- OP is 0xB..0xF (R141). -/
  | reservedOp
  /-- ROUND with N = 0 or N > 64 (R142). -/
  | roundCount
  /-- N is not 0 on a command other than ROUND (R143). -/
  | strayCount
  deriving DecidableEq, Repr

/-- RES1 = c[31:15] (R140). -/
def fieldRes1 (c : Word) : BitVec 17 := c.extractLsb' 15 17

/-- N = c[14:8] (R140, R142). -/
def fieldN (c : Word) : BitVec 7 := c.extractLsb' 8 7

/-- RES0 = c[7:4] (R140). -/
def fieldRes0 (c : Word) : BitVec 4 := c.extractLsb' 4 4

/-- OP = c[3:0] (R140, R141). -/
def fieldOp (c : Word) : BitVec 4 := c.extractLsb' 0 4

/-- A command without an operand: its N must be 0 (R143). -/
def plainCommand (n : BitVec 7) (i : Instr) : Except Illegal Instr :=
  if n = 0 then .ok i else .error .strayCount

/-- ROUND N: legal for N in 1..64 (R142). -/
def roundCommand (n : BitVec 7) : Except Illegal Instr :=
  if n = 0 ∨ 64 < n.toNat then .error .roundCount else .ok (.round n)

/-- The command an OP value names, given N (R141, R144). -/
def decodeOp (op : Nat) (n : BitVec 7) : Except Illegal Instr :=
  match op with
  | 0x0 => plainCommand n .nop
  | 0x1 => plainCommand n .init
  | 0x2 => plainCommand n .pad
  | 0x3 => plainCommand n .sched
  | 0x4 => plainCommand n .wvload
  | 0x5 => roundCommand n
  | 0x6 => plainCommand n .fold
  | 0x7 => plainCommand n .compress
  | 0x8 => plainCommand n .format
  | 0x9 => plainCommand n .digest
  | 0xA => plainCommand n .sreset
  | _ => .error .reservedOp

/-- Decoding, a total function of the 32-bit word (R144). -/
def decode (c : Word) : Except Illegal Instr :=
  if fieldRes1 c ≠ 0 ∨ fieldRes0 c ≠ 0 then .error .reservedBits
  else decodeOp (fieldOp c).toNat (fieldN c)

/-- The word of fields RES1 = 0, N, RES0 = 0, OP (R140). -/
def commandWord (n : BitVec 7) (op : BitVec 4) : Word :=
  (0 : BitVec 17) ++ n ++ (0 : BitVec 4) ++ op

/-- The word of a command, from the opcode map of R145. -/
def encode : Instr → Word
  | .nop => commandWord 0 0x0
  | .init => commandWord 0 0x1
  | .pad => commandWord 0 0x2
  | .sched => commandWord 0 0x3
  | .wvload => commandWord 0 0x4
  | .round n => commandWord n 0x5
  | .fold => commandWord 0 0x6
  | .compress => commandWord 0 0x7
  | .format => commandWord 0 0x8
  | .digest => commandWord 0 0x9
  | .sreset => commandWord 0 0xA

/-- The command the decoder reads from a table word of `nbits` bits; every bit above `nbits` is 0. A command is one
32-bit word (R147), numbered as the opcode table numbers it (R9). -/
def decodeTableWord (nbits w : Nat) : Option Instr :=
  match decode (BitVec.ofNat 32 (w % 2 ^ nbits)) with
  | .ok i => some i
  | .error _ => none

end Sys2Proof
end

