-- ==== Sys2Proof/Config.lean ====
section
/-! DEFINITION. What an implementation fixes (00_scope.md R6) and the free values the spec leaves open. -/

namespace Sys2Proof

/-- `LENGTH_FIELD_MODE` (R6): how the 64-bit length field of the padding is formed (R180). -/
inductive LengthMode where
  | ref32
  | full64
  deriving DecidableEq, Repr

/-- The parameters of R6 that are numbers or modes. `LATENCY`, the fourth, is no number of the model: the
completion is taken when its turn comes (log 3). -/
structure Config where
  /-- `MSG_CAP`: bytes in the message buffer. -/
  msgCap : Nat
  /-- `LENGTH_FIELD_MODE`. -/
  lenMode : LengthMode
  /-- `BASE`: the bus address of register offset 0. -/
  base : Nat
  deriving DecidableEq, Repr

/-- The legal values of R6: MSG_CAP a multiple of 64 with 64 ≤ MSG_CAP ≤ 2^31, and BASE aligned to a power of two
that is at least 0x1000 + MSG_CAP. The least such power is at most 2^32, and a base aligned to a greater power is
aligned to it. -/
abbrev Config.Legal (c : Config) : Prop :=
  c.msgCap % 64 = 0 ∧ 64 ≤ c.msgCap ∧ c.msgCap ≤ 2 ^ 31 ∧
    ∃ p ∈ List.range 33, 0x1000 + c.msgCap ≤ 2 ^ p ∧ c.base % 2 ^ p = 0

/-- The reference configuration of R6: MSG_CAP = 4096 and REF32.
DESIGN CHOICE (log 2): the spec gives BASE no value; the model's reference value is 0. No rule depends on it. -/
def Config.reference : Config := { msgCap := 4096, lenMode := .ref32, base := 0 }

/-- FREE VALUE (log 5). What a byte of `MSG` that nothing has written since a hardware reset holds: any value, fixed
until it is written (R68, R372, 93 item 4). The first argument says which hardware reset, the second which byte. -/
opaque Config.msgDraw : Nat → Nat → Byte

/-- FREE VALUE (log 6). What the n-th bus read of a volatile register while BUSY = 1 returns: any value, a fresh one
for every read (R111, 93 item 5). A byte read returns the low byte of it, a read of ROUNDCTR its bits 6:0 (log 16). -/
opaque Config.busyRead : Nat → Word

end Sys2Proof
end

