-- ==== Sys2Proof/Machine/Datapath.lean ====
section
/-! DEFINITION. The pure functions of 40_datapath.md (R170 to R193): word operations, the constant tables, the padding,
the partition, the schedule, the round, the compression of one Block, the hexadecimal Digest and the whole digest. The
long ones are marked irreducible, so that the unifier does not unroll them; the kernel evaluates them as any other. -/

namespace Sys2Proof.Machine

/-! ## Word operations (R10, R171 to R175, R178, R179) -/

/-- `rotr(x, n)` for 0 < n < 32 (R10). -/
def rotr (x : Word) (n : Nat) : Word := (x >>> n) ||| (x <<< (32 - n))

/-- `shr(x, n)`, zero-filling from bit 31 (R10). -/
def shr (x : Word) (n : Nat) : Word := x >>> n

/-- σ0 (R172). -/
def smallSigma0 (x : Word) : Word := rotr x 7 ^^^ rotr x 18 ^^^ shr x 3

/-- σ1 (R173). -/
def smallSigma1 (x : Word) : Word := rotr x 17 ^^^ rotr x 19 ^^^ shr x 10

/-- Σ0 (R174). -/
def bigSigma0 (a : Word) : Word := rotr a 2 ^^^ rotr a 13 ^^^ rotr a 22

/-- Σ1 (R175). -/
def bigSigma1 (e : Word) : Word := rotr e 6 ^^^ rotr e 11 ^^^ rotr e 25

/-- `Ch(e, f, g)` (R178). -/
def ch (e f g : Word) : Word := (e &&& f) ^^^ (~~~e &&& g)

/-- `Maj(a, b, c)` (R179). -/
def maj (a b c : Word) : Word := (a &&& b) ^^^ (a &&& c) ^^^ (b &&& c)

/-! ## Byte sequences (R11) -/

/-- `be32(b0, b1, b2, b3)`: `b0` is the most significant byte (R11). -/
def be32 (b0 b1 b2 b3 : Byte) : Word := b0 ++ b1 ++ b2 ++ b3

/-- Byte `k` of a word, `k = 0` the most significant (the lanes of R104, the order of R191). -/
def byteOfWord (v : Word) (k : Nat) : Byte := v.extractLsb' (24 - 8 * k) 8

/-- `be64bytes(v)`: the 8 bytes of `v`, the most significant first (R11). -/
def be64bytes (v : BitVec 64) : List Byte :=
  (List.range 8).map fun k => v.extractLsb' (56 - 8 * k) 8

/-! ## Constant tables (R176, R177) -/

/-- The initial State `IV[0..7]` (R176). -/
def iv : Vector Word 8 :=
  #v[0x6a09e667, 0xbb67ae85, 0x3c6ef372, 0xa54ff53a,
     0x510e527f, 0x9b05688c, 0x1f83d9ab, 0x5be0cd19]

/-- K[0..7] (R177). -/
def kRow0 : List Word :=
  [0x428a2f98, 0x71374491, 0xb5c0fbcf, 0xe9b5dba5,
   0x3956c25b, 0x59f111f1, 0x923f82a4, 0xab1c5ed5]

/-- K[8..15] (R177). -/
def kRow1 : List Word :=
  [0xd807aa98, 0x12835b01, 0x243185be, 0x550c7dc3,
   0x72be5d74, 0x80deb1fe, 0x9bdc06a7, 0xc19bf174]

/-- K[16..23] (R177). -/
def kRow2 : List Word :=
  [0xe49b69c1, 0xefbe4786, 0x0fc19dc6, 0x240ca1cc,
   0x2de92c6f, 0x4a7484aa, 0x5cb0a9dc, 0x76f988da]

/-- K[24..31] (R177). -/
def kRow3 : List Word :=
  [0x983e5152, 0xa831c66d, 0xb00327c8, 0xbf597fc7,
   0xc6e00bf3, 0xd5a79147, 0x06ca6351, 0x14292967]

/-- K[32..39] (R177). -/
def kRow4 : List Word :=
  [0x27b70a85, 0x2e1b2138, 0x4d2c6dfc, 0x53380d13,
   0x650a7354, 0x766a0abb, 0x81c2c92e, 0x92722c85]

/-- K[40..47] (R177). -/
def kRow5 : List Word :=
  [0xa2bfe8a1, 0xa81a664b, 0xc24b8b70, 0xc76c51a3,
   0xd192e819, 0xd6990624, 0xf40e3585, 0x106aa070]

/-- K[48..55] (R177). -/
def kRow6 : List Word :=
  [0x19a4c116, 0x1e376c08, 0x2748774c, 0x34b0bcb5,
   0x391c0cb3, 0x4ed8aa4a, 0x5b9cca4f, 0x682e6ff3]

/-- K[56..63] (R177). -/
def kRow7 : List Word :=
  [0x748f82ee, 0x78a5636f, 0x84c87814, 0x8cc70208,
   0x90befffa, 0xa4506ceb, 0xbef9a3f7, 0xc67178f2]

/-- The Round Constants `K[0..63]` (R177). -/
def kTable : List Word :=
  kRow0 ++ kRow1 ++ kRow2 ++ kRow3 ++ kRow4 ++ kRow5 ++ kRow6 ++ kRow7

/-- `K[t]`, used for t = 0..63 only (R177). -/
def roundConstant (t : Nat) : Word := kTable.getD t 0

/-! ## Padding and partition (R180 to R185) -/

/-- `lenField(L)` (R180): the bit length 8 × L modulo 2^32 or modulo 2^64. -/
def lenField (mode : LengthMode) (l : Nat) : BitVec 64 :=
  match mode with
  | .ref32 => BitVec.ofNat 64 (8 * l % 2 ^ 32)
  | .full64 => BitVec.ofNat 64 (8 * l)

/-- `padLen(L)`: the length in bytes of the Padded Message (R181). -/
def padLen (l : Nat) : Nat := 64 * ((l + 72) / 64)

/-- `nblk(L)`: the number of Blocks of the Padded Message (R181). -/
def nblkOf (l : Nat) : Nat := padLen l / 64

/-- `pad(L)`: 0x80, then Z zero bytes, then the length field (R182). -/
def padBytes (mode : LengthMode) (l : Nat) : List Byte :=
  0x80 :: (List.replicate (padLen l - l - 9) 0 ++ be64bytes (lenField mode l))

/-- `pm(m)`: the Padded Message (R184). -/
def paddedMessage (mode : LengthMode) (m : List Byte) : List Byte := m ++ padBytes mode m.length

/-- `block(p, j)`: the 64 bytes of Block `j` (R185). -/
def blockOf (p : List Byte) (j : Nat) : Vector Byte 64 :=
  Vector.ofFn fun i : Fin 64 => p.getD (64 * j + i.val) 0

/-! ## Schedule, round and compression (R186 to R188) -/

/-- `W[t]` for t = 0..15: the Block's big-endian words (R101, R186). -/
def blockWord (b : Vector Byte 64) (t : Nat) : Word :=
  be32 b[4 * t]! b[4 * t + 1]! b[4 * t + 2]! b[4 * t + 3]!

/-- The word after the words `ws = W[0..t-1]`: W(t−16) + σ0(W(t−15)) + W(t−7) + σ1(W(t−2)) (R186). -/
def nextScheduleWord (ws : List Word) : Word :=
  let t := ws.length
  ws.getD (t - 16) 0 + smallSigma0 (ws.getD (t - 15) 0) + ws.getD (t - 7) 0 + smallSigma1 (ws.getD (t - 2) 0)

/-- `W[0 .. 15 + n]` (R186). -/
def scheduleWords (b : Vector Byte 64) : Nat → List Word
  | 0 => (List.range 16).map (blockWord b)
  | n + 1 => scheduleWords b n ++ [nextScheduleWord (scheduleWords b n)]

theorem scheduleWords_length (b : Vector Byte 64) (n : Nat) : (scheduleWords b n).length = 16 + n := by
  induction n with
  | zero => simp [scheduleWords]
  | succ n ih => simp [scheduleWords, ih]; omega

/-- `schedule(B)`: the 64 words of a Block's Message Schedule (R186). -/
@[irreducible] def schedule (b : Vector Byte 64) : Vector Word 64 :=
  Vector.mk (scheduleWords b 48).toArray (by simp [scheduleWords_length])

/-- `round(v, t, Wt)`, every right-hand side from the old `v` (R187). -/
def roundStep (v : Vector Word 8) (t : Nat) (wt : Word) : Vector Word 8 :=
  let t1 := v[7] + bigSigma1 v[4] + ch v[4] v[5] v[6] + roundConstant t + wt
  let t2 := bigSigma0 v[0] + maj v[0] v[1] v[2]
  #v[t1 + t2, v[0], v[1], v[2], v[3] + t1, v[4], v[5], v[6]]

/-- `n` rounds from round `t` on (R187, R281). -/
@[irreducible] def rounds (w : Vector Word 64) (t : Nat) : Nat → Vector Word 8 → Vector Word 8
  | 0, v => v
  | n + 1, v => rounds w (t + 1) n (roundStep v t w[t]!)

/-- `fold(H, v)`: each word of `H` plus the working variable that corresponds to it (R43, R188). -/
@[irreducible] def foldWords (h v : Vector Word 8) : Vector Word 8 :=
  Vector.ofFn fun i : Fin 8 => h[i] + v[i]

/-- `compressBlock(H, B)` (R188). -/
@[irreducible] def compressBlock (h : Vector Word 8) (b : Vector Byte 64) : Vector Word 8 :=
  foldWords h (rounds (schedule b) 0 64 h)

/-! ## Digest (R189 to R191) -/

/-- The lowercase hexadecimal character of a nibble, in ASCII (R189). -/
def hexChar (n : BitVec 4) : Byte :=
  if n ≤ 9 then 0x30 + n.setWidth 8 else 0x61 + n.setWidth 8 - 10

/-- Nibble `k` of a word, `k = 0` the most significant: (v >> (28 − 4k)) and 0xF (R189). -/
def nibbleOfWord (v : Word) (k : Nat) : BitVec 4 := v.extractLsb' (28 - 4 * k) 4

/-- `hexDigest(H)`: character 8i + k is nibble `k` of `H[i]` (R189). -/
@[irreducible] def hexDigest (h : Vector Word 8) : Vector Byte 64 :=
  Vector.ofFn fun j : Fin 64 => hexChar (nibbleOfWord h[j.val / 8] (j.val % 8))

/-- The 32-byte binary Digest: byte 4i + k is byte `k` of `H[i]` (R191). The block shows it as the words `H` only. -/
def binaryDigest (h : Vector Word 8) : Vector Byte 32 :=
  Vector.ofFn fun j : Fin 32 => byteOfWord h[j.val / 4] (j.val % 4)

/-- The State after the first `n` Blocks of the Padded Message `p`, from `IV` (R190). -/
def chain (p : List Byte) : Nat → Vector Word 8
  | 0 => iv
  | n + 1 => compressBlock (chain p n) (blockOf p n)

/-- `digestWords(m)` (R190). -/
def digestWords (mode : LengthMode) (m : List Byte) : Vector Word 8 :=
  chain (paddedMessage mode m) (nblkOf m.length)

end Sys2Proof.Machine
end

