-- ==== Sys2Proof/Machine/State.lean ====
section
/-! DEFINITION. The state of one engine instance (10_state.md R40), the turns of the three agents, the answers to the
host, and the reasons a step can stop. -/

namespace Sys2Proof.Machine

/-- The result codes of a command, the values of `STATUS.ERR` (R56, R331). Codes 4..7 are never produced, so no value
stands for one (93 item 9; log 7). -/
inductive ResultCode where
  /-- 0 OK. -/
  | ok
  /-- 1 ILLEGAL: the word does not decode (R332). -/
  | illegal
  /-- 2 CAPACITY: the Padded Message does not fit the buffer (R333). -/
  | capacity
  /-- 3 SEQUENCE: a compression step out of order (R334). -/
  | sequence
  deriving DecidableEq, Repr

/-- `STATUS.CPHASE`, the phase of the compression sequencer (R51). Value 3 is never produced (93 item 10; log 7). -/
inductive CPhase where
  /-- 0: no schedule for Block BLKIDX is held. -/
  | empty
  /-- 1: W holds the schedule of Block BLKIDX. -/
  | scheduled
  /-- 2: W holds the schedule, WV is seeded, ROUNDCTR rounds are done. -/
  | rounding
  deriving DecidableEq, Repr

/-- The size of a bus transaction: 1, 2 or 4 bytes (R108). -/
inductive Size where
  | byte
  | half
  | word
  deriving DecidableEq, Repr

/-- The direction of a bus transaction (R108). -/
inductive Dir where
  | read
  | write
  deriving DecidableEq, Repr

/-- A bus transaction of the host at a bus address (R8, R108); a write carries its data. -/
inductive BusTxn where
  | read (addr : Nat) (size : Size)
  | write (addr : Nat) (size : Size) (data : Word)
  deriving DecidableEq, Repr

/-- One turn of the interleaving of R115: who moves, and what it does (log 3). -/
inductive Turn where
  /-- The host makes a bus transaction. -/
  | host (t : BusTxn)
  /-- The engine takes its completion step, if a command is in flight (R221). -/
  | engine
  /-- The platform asserts the reset input (R370). -/
  | reset
  deriving DecidableEq, Repr

/-- What the host is answered (R108, R109, R111). -/
inductive Response where
  | readOk (data : Word)
  | writeOk
  /-- A bus error on a read; it carries data 0 (R108). -/
  | readError (data : Word)
  | writeError
  deriving DecidableEq, Repr

/-- An answer, with `BUSY` as it was at the transaction: reads made while BUSY = 1 are no part of a run's outcome
(R384). -/
structure Reply where
  busy : Bool
  response : Response
  deriving DecidableEq, Repr

/-- The state: the elements of R40, each stored once, then the model's own fields. `LENMODE`, `CAPACITY`, `ID`, `CTRL`
and `irq` are views (Flags.lean, Operands.lean): they hold nothing of their own. -/
structure State where
  /-- The parameters of R6; no step changes them (log 1). -/
  cfg : Config
  /-- `H[0..7]`, the chaining State (R41). -/
  h : Vector Word 8
  /-- `WV[0..7]`, the working variables a..h (R42, R43). -/
  wv : Vector Word 8
  /-- `W[0..63]`, the Message Schedule (R44). -/
  w : Vector Word 64
  /-- `MSG`: the bytes written since the last hardware reset, by offset, strictly rising (R45; log 5). -/
  mem : List Host.Cell
  /-- `HEX[0..63]` (R46). -/
  hex : Vector Byte 64
  /-- `MSG_LEN` (R47). -/
  msgLen : Word
  /-- `NBLK` (R48). -/
  nblk : Word
  /-- `BLKIDX` (R49). -/
  blkIdx : Word
  /-- `ROUNDCTR` (R50). -/
  roundCtr : Word
  /-- `STATUS.BUSY` (R54). -/
  busy : Bool
  /-- `STATUS.DONE` (R55). -/
  done : Bool
  /-- `STATUS.ERR` (R56). -/
  err : ResultCode
  /-- `STATUS.OVR` (R57). -/
  ovr : Bool
  /-- `STATUS.PADDED` (R59). -/
  padded : Bool
  /-- `STATUS.CPHASE` (R51). -/
  phase : CPhase
  /-- `IRQ_EN.DONE_IE` (R62). -/
  doneIe : Bool
  /-- `PENDING`, hidden (R64). -/
  pending : Word
  /-- Model's own: which hardware reset the unwritten bytes of `MSG` were drawn at (log 5). -/
  msgEpoch : Nat
  /-- Model's own: how many unspecified reads have been answered (log 6). -/
  draws : Nat
  /-- Model's own: the coming turns, the next one first (log 3). -/
  turns : List Turn
  /-- Model's own: the answers to the host so far, the newest first (log 4). -/
  replies : List Reply
  deriving DecidableEq, Repr

/-- Why the machine stops with a fault. -/
inductive Fault where
  /-- Raised by the engine's `MemRead` and `MemWrite` (Operands.lean) for a range that is not inside `MSG`, where R12
  gives them no meaning. Safe: R121 says that it never happens, and it happens in no state that meets the invariant of
  R66 (log 8). -/
  | bufferRange
  deriving DecidableEq, Repr

/-- Why the machine gives an instruction no meaning. -/
inductive Refusal where
  /-- Raised only by an arm of `exec` whose instruction has no meaning yet. Safe: the machine stops. No arm of this
  model uses it. -/
  | notModelled (mnemonic : String)
  deriving DecidableEq, Repr

/-- What a meaning or a step answers. -/
abbrev Result := Host.Outcome State Fault Refusal

/-- The state after hardware reset of a machine of the given parameters (R68, R370; `ResetState` of R386). -/
def State.resetOf (c : Config) : State where
  cfg := c
  h := iv
  wv := Vector.replicate 8 0
  w := Vector.replicate 64 0
  mem := []
  hex := Vector.replicate 64 0
  msgLen := 0
  nblk := 0
  blkIdx := 0
  roundCtr := 0
  busy := false
  done := false
  err := .ok
  ovr := false
  padded := false
  phase := .empty
  doneIe := false
  pending := 0
  msgEpoch := 0
  draws := 0
  turns := []
  replies := []

/-- The machine right after reset, in the reference configuration of R6 (log 1). -/
def State.reset : State := State.resetOf Config.reference

end Sys2Proof.Machine
end

