-- ==== Sys2Proof/Machine/Ops.lean ====
section
/-! DEFINITION. The named operations over the message buffer and the registers: the buffer's memory, the issue of a
command, its completion, the recording of a command error, and the hardware reset. -/

namespace Sys2Proof.Machine

/-! ## Memory: (address, byte) pairs in one canonical form

An unlisted address holds no written byte (`none`), so no entry can equal what an unlisted address reads as; what the
buffer then shows is the free value of log 5 (`State.msgByte`). -/

/-- The canonical form: the addresses rise strictly. -/
abbrev Memory.wf (m : List Host.Cell) : Prop := m.Pairwise fun a b => a.1 < b.1

/-- The byte last written at an address, none if nothing wrote it. -/
def Memory.read : List Host.Cell → Nat → Option Byte
  | [], _ => none
  | (a, b) :: rest, k => if k = a then some b else Memory.read rest k

/-- Write one byte, keeping the canonical form. -/
def Memory.write : List Host.Cell → Nat → Byte → List Host.Cell
  | [], k, v => [(k, v)]
  | (a, b) :: rest, k, v =>
    if k < a then (k, v) :: (a, b) :: rest
    else if k = a then (k, v) :: rest
    else (a, b) :: Memory.write rest k v

/-- Write a sequence of bytes, its first byte at `k` (the order of R12's `MemWrite`). -/
def Memory.writeBytes (m : List Host.Cell) (k : Nat) : List Byte → List Host.Cell
  | [] => m
  | b :: bs => Memory.writeBytes (Memory.write m k b) (k + 1) bs

/-- `MSG[k]` (R45): the byte last written there, or the draw of the last hardware reset (R372; log 5). -/
def State.msgByte (s : State) (k : Nat) : Byte :=
  (Memory.read s.mem k).getD (Config.msgDraw s.msgEpoch k)

/-! ## Issue, completion and error -/

/-- Issue of a command word while BUSY = 0 (R220): the word is not checked here. -/
def State.issue (s : State) (v : Word) : State :=
  { s with pending := v, busy := true, done := false }

/-- What completion records, whatever the command did (R222). -/
def State.complete (s : State) (code : ResultCode) : State :=
  { s with err := code, busy := false, done := true }

/-- Completion of a command that gives the new state `s` (R222): code 0. -/
def finish (s : State) : Result := .next (s.complete .ok)

/-- THE EXCEPTION OF THIS HARDWARE: `raise CmdError(code)` and the completion after it (R12, R222, R224). The state
is the one the command started from; only ERR, BUSY and DONE change. There is no vector, no saved register and no
return (R340, R341). -/
def raise (code : ResultCode) (s : State) : Result := .next (s.complete code)

/-! ## Reset -/

/-- The values of R68 but MSG, as SRESET applies them (R228). PENDING is in the table of R68. -/
def State.softReset (s : State) : State :=
  { s with
    h := iv, wv := Vector.replicate 8 0, w := Vector.replicate 64 0, hex := Vector.replicate 64 0
    msgLen := 0, nblk := 0, blkIdx := 0, roundCtr := 0
    busy := false, done := false, err := .ok, ovr := false, padded := false, phase := .empty
    doneIe := false, pending := 0 }

/-- Hardware reset (R370, R372, R373): R68's values, and `MSG` unspecified, a fresh draw per byte (log 5). -/
def State.hardReset (s : State) : State :=
  { s.softReset with mem := [], msgEpoch := s.msgEpoch + 1 }

end Sys2Proof.Machine
end

