-- ==== Sys2Proof/Machine/Flags.lean ====
section
/-! DEFINITION. The fields of STATUS and IRQ_EN as the bus sees them, their write-1-to-clear, and the interrupt output
(10_state.md R51, R53 to R62, R69, R72, R73). -/

namespace Sys2Proof.Machine

/-- The number of a result code (R56, R331). -/
def ResultCode.code : ResultCode → Word
  | .ok => 0
  | .illegal => 1
  | .capacity => 2
  | .sequence => 3

/-- The number of a phase (R51). -/
def CPhase.code : CPhase → Word
  | .empty => 0
  | .scheduled => 1
  | .rounding => 2

/-- A one-bit field as a word. -/
def flagWord (b : Bool) : Word := if b then 1 else 0

/-- `STATUS.LENMODE` (R60): 0 for REF32, 1 for FULL64. -/
def lenModeBit : LengthMode → Bool
  | .ref32 => false
  | .full64 => true

/-- The value a read of STATUS returns (R53, R109); bits 31:10 read 0. -/
def State.statusWord (s : State) : Word :=
  flagWord s.busy ||| (flagWord s.done <<< 1) ||| (s.err.code <<< 2) ||| (flagWord s.ovr <<< 5) |||
    (flagWord s.padded <<< 6) ||| (s.phase.code <<< 7) ||| (flagWord (lenModeBit s.cfg.lenMode) <<< 9)

/-- A host write of `v` to STATUS (R72): bit 1 clears DONE, bit 5 clears OVR, every other bit is ignored. -/
def State.writeStatus (s : State) (v : Word) : State :=
  { s with done := s.done && !v.getLsbD 1, ovr := s.ovr && !v.getLsbD 5 }

/-- A host write of `v` to IRQ_EN (R73): bit 0 is DONE_IE, bits 31:1 are ignored. -/
def State.writeIrqEn (s : State) (v : Word) : State := { s with doneIe := v.getLsbD 0 }

/-- The level output `irq` (R69). -/
def State.irq (s : State) : Bool := s.doneIe && s.done

end Sys2Proof.Machine
end

