-- ==== Sys2Proof/Machine/Operands.lean ====
section
/-! DEFINITION. What a command or a bus transaction names: the ranges of MSG the engine reads and writes (00_scope.md
R12), the Message, and the targets of the register map (10_state.md R67) with the accesses each admits (20_memory.md R106
to R108). -/

namespace Sys2Proof.Machine

/-! ## The engine's access to MSG -/

/-- `MemRead(k, n)` (R12): the bytes `MSG[k .. k+n-1]`; defined only inside the buffer. -/
def State.memRead (s : State) (k n : Nat) : Option (Vector Byte n) :=
  if k + n ≤ s.cfg.msgCap then some (Vector.ofFn fun i : Fin n => s.msgByte (k + i.val)) else none

/-- `MemWrite(k, n, seq)` with `n` the length of `seq` (R12, C11): defined only inside the buffer. -/
def State.memWrite (s : State) (k : Nat) (bytes : List Byte) : Option State :=
  if k + bytes.length ≤ s.cfg.msgCap then some { s with mem := Memory.writeBytes s.mem k bytes } else none

/-- The Message: `MSG[0 .. MSG_LEN-1]` (R14). -/
def State.message (s : State) : List Byte := (List.range s.msgLen.toNat).map s.msgByte

/-! ## The register map -/

/-- A target of the register map (R67). -/
inductive Region where
  | ctrl
  | status
  | irqEn
  | msgLen
  | nblk
  | blkIdx
  | roundCtr
  | capacity
  | id
  | h (i : Fin 8)
  | wv (i : Fin 8)
  | w (t : Fin 64)
  | hex (k : Fin 64)
  | msg (k : Nat)
  deriving DecidableEq, Repr

/-- The target that a byte offset lies in; none in a reserved range or outside the window (R67). -/
def regionAt (cap off : Nat) : Option Region :=
  if off < 0x004 then some .ctrl
  else if off < 0x008 then some .status
  else if off < 0x00C then some .irqEn
  else if off < 0x010 then some .msgLen
  else if off < 0x014 then some .nblk
  else if off < 0x018 then some .blkIdx
  else if off < 0x01C then some .roundCtr
  else if off < 0x020 then some .capacity
  else if off < 0x024 then some .id
  else if off < 0x040 then none
  else if off < 0x060 then some (.h (Fin.ofNat 8 ((off - 0x040) / 4)))
  else if off < 0x080 then some (.wv (Fin.ofNat 8 ((off - 0x060) / 4)))
  else if off < 0x100 then none
  else if off < 0x200 then some (.w (Fin.ofNat 64 ((off - 0x100) / 4)))
  else if off < 0x240 then some (.hex (Fin.ofNat 64 (off - 0x200)))
  else if off < 0x1000 then none
  else if off < 0x1000 + cap then some (.msg (off - 0x1000))
  else none

/-- The access widths of R106: a word where it is admitted at all, a byte only in HEX and MSG, 16 bits never. -/
def admits (dir : Dir) (size : Size) : Region → Bool
  | .ctrl | .status | .irqEn | .msgLen | .h _ => decide (size = .word)
  | .nblk | .blkIdx | .roundCtr | .capacity | .id | .wv _ | .w _ => decide (dir = .read ∧ size = .word)
  | .hex _ => decide (dir = .read ∧ size ≠ .half)
  | .msg _ => decide (size ≠ .half)

/-- The target of a transaction, none where the transaction is a bus error (R107, R108). The offset is counted from
`BASE`; an address below `BASE` is outside the window (R8; log 2). -/
def accessTarget (c : Config) (dir : Dir) (addr : Nat) (size : Size) : Option Region :=
  if addr < c.base then none
  else if size = .word ∧ (addr - c.base) % 4 ≠ 0 then none
  else
    match regionAt c.msgCap (addr - c.base) with
    | none => none
    | some r => if admits dir size r then some r else none

/-- The targets whose read is unspecified while BUSY = 1 (R111). -/
def volatileTarget : Region → Bool
  | .ctrl | .status | .irqEn | .capacity | .id => false
  | .msgLen | .nblk | .blkIdx | .roundCtr | .h _ | .wv _ | .w _ | .hex _ | .msg _ => true

/-- The targets whose write is dropped while BUSY = 1 (R111); of the others only STATUS and IRQ_EN admit a write. -/
def lockedTarget : Region → Bool
  | .ctrl | .msgLen | .h _ | .msg _ => true
  | .status | .irqEn | .nblk | .blkIdx | .roundCtr | .capacity | .id | .wv _ | .w _ | .hex _ => false

/-- `ID` (R58). -/
def idWord : Word := 0x53484132

end Sys2Proof.Machine
end

