-- ==== Sys2Proof/Machine/Bus.lean ====
section
/-! DEFINITION. The host's side: how the block serves one bus transaction (20_memory.md R104 to R112). -/

namespace Sys2Proof.Machine

/-- A read of a byte buffer at offset `k` (R104, R109): four bytes big-endian, or one byte zero-extended. -/
def bufferRead (size : Size) (byteAt : Nat → Byte) (k : Nat) : Word :=
  match size with
  | .word => be32 (byteAt k) (byteAt (k + 1)) (byteAt (k + 2)) (byteAt (k + 3))
  | .half => (byteAt k).setWidth 32
  | .byte => (byteAt k).setWidth 32

/-- What a read returns when BUSY = 0 or the target is not volatile (R109). -/
def State.readTarget (s : State) (size : Size) : Region → Word
  | .ctrl => 0
  | .status => s.statusWord
  | .irqEn => flagWord s.doneIe
  | .msgLen => s.msgLen
  | .nblk => s.nblk
  | .blkIdx => s.blkIdx
  | .roundCtr => s.roundCtr
  | .capacity => BitVec.ofNat 32 s.cfg.msgCap
  | .id => idWord
  | .h i => s.h[i]
  | .wv i => s.wv[i]
  | .w t => s.w[t]
  | .hex k => bufferRead size (fun j => s.hex[j]!) k.val
  | .msg k => bufferRead size s.msgByte k

/-- A write of `v` to `MSG_LEN` while BUSY = 0, one step with all its side effects (R71). -/
def State.writeMsgLen (s : State) (v : Word) : State :=
  { s with msgLen := v, padded := false, nblk := 0, blkIdx := 0, phase := .empty, roundCtr := 0 }

/-- The bytes that a write of `v` moves into a byte buffer (R104, R110): bits 31:24 first, or the low byte alone. -/
def laneBytes (size : Size) (v : Word) : List Byte :=
  match size with
  | .word => [byteOfWord v 0, byteOfWord v 1, byteOfWord v 2, byteOfWord v 3]
  | .half => [byteOfWord v 3]
  | .byte => [byteOfWord v 3]

/-- A write of `v` to a target that admits it, performed (R110). The read-only targets admit no write. -/
def State.writeTarget (s : State) (size : Size) (v : Word) : Region → State
  | .ctrl => s.issue v
  | .status => s.writeStatus v
  | .irqEn => s.writeIrqEn v
  | .msgLen => s.writeMsgLen v
  | .h i => { s with h := s.h.set i v }
  | .msg k => { s with mem := Memory.writeBytes s.mem k (laneBytes size v) }
  | .nblk => s
  | .blkIdx => s
  | .roundCtr => s
  | .capacity => s
  | .id => s
  | .wv _ => s
  | .w _ => s
  | .hex _ => s

/-- Record the block's answer (log 4). `busy` is BUSY at the transaction. -/
def State.answer (s : State) (busy : Bool) (r : Response) : State :=
  { s with replies := { busy := busy, response := r } :: s.replies }

/-- What an unspecified read of a target returns: any word, or any byte zero-extended (R111; log 6); of ROUNDCTR, any value
of bits 6:0.
DEDUCED (log 16), unsafe: bits 31:7 of ROUNDCTR read 0 whatever BUSY is, as R50 and 93 item 11 say, although R111 and 93
item 5 say any value of such a read. -/
def drawFor (r : Region) (size : Size) (n : Nat) : Word :=
  match size with
  | .word => if r = .roundCtr then ((Config.busyRead n).setWidth 7).setWidth 32 else Config.busyRead n
  | .half => ((Config.busyRead n).setWidth 8).setWidth 32
  | .byte => ((Config.busyRead n).setWidth 8).setWidth 32

/-- Serve a read: a bus error (R108), a draw (R111) or the value (R109). No read changes a state element of R40. -/
def State.serveRead (s : State) (addr : Nat) (size : Size) : State :=
  match accessTarget s.cfg .read addr size with
  | none => s.answer s.busy (.readError 0)
  | some r =>
    if s.busy && volatileTarget r then
      { s with draws := s.draws + 1 }.answer s.busy (.readOk (drawFor r size s.draws))
    else s.answer s.busy (.readOk (s.readTarget size r))

/-- Serve a write: a bus error (R108, decided before BUSY is looked at, R335), a drop that sets OVR (R111, R337) or the
write itself (R110). -/
def State.serveWrite (s : State) (addr : Nat) (size : Size) (v : Word) : State :=
  match accessTarget s.cfg .write addr size with
  | none => s.answer s.busy .writeError
  | some r =>
    if s.busy && lockedTarget r then { s with ovr := true }.answer s.busy .writeOk
    else (s.writeTarget size v r).answer s.busy .writeOk

/-- Serve one bus transaction, whole (R112, R115). -/
def State.serve (s : State) : BusTxn → State
  | .read addr size => s.serveRead addr size
  | .write addr size v => s.serveWrite addr size v

end Sys2Proof.Machine
end

