-- ==== Sys2Proof/Machine/Schedule.lean ====
section
/-! DEFINITION. SCHED, the message schedule generator (43_schedule.md R260). -/

namespace Sys2Proof.Machine

/-- No Block is left to schedule: the SEQUENCE condition of SCHED and COMPRESS (R260, R283, R334). -/
def State.noBlock (s : State) : Bool := !s.padded || decide (s.nblk ≤ s.blkIdx)

/-- SCHED (R260). -/
def execSched (s : State) : Result :=
  if s.noBlock then raise .sequence s
  else
    match s.memRead (64 * s.blkIdx.toNat) 64 with
    | none => .fault .bufferRange
    | some b => finish { s with w := schedule b, roundCtr := 0, phase := .scheduled }

end Sys2Proof.Machine
end

