-- ==== Sys2Proof/Machine/Compression.lean ====
section
/-! DEFINITION. WVLOAD, ROUND, FOLD and COMPRESS (44_compression.md R280 to R283), and the compression of one Block that
COMPRESS shares with DIGEST. -/

namespace Sys2Proof.Machine

/-- Compress Block `j` of the buffer into `H`, leaving its schedule in `W` and its last working variables in `WV` (R283,
R311); none where the Block is not inside the buffer.
DESIGN CHOICE (log 17), unsafe: WV is written, as the pseudocode of R283 and R311 says, although R381 says of COMPRESS and
DIGEST too that the partial working variables of an abandoned compression stay in WV. -/
def State.compressAt (s : State) (j : Nat) : Option State :=
  match s.memRead (64 * j) 64 with
  | none => none
  | some b =>
    some { s with
      w := schedule b
      wv := rounds (schedule b) 0 64 s.h
      h := compressBlock s.h b }

/-- WVLOAD (R280): SEQUENCE in phase EMPTY. -/
def execWvload (s : State) : Result :=
  if s.phase = .empty then raise .sequence s
  else finish { s with wv := s.h, roundCtr := 0, phase := .rounding }

/-- ROUND N (R281). N = 0 and N > 64 are ILLEGAL before any other check (R142, R335): the decoder gives no such ROUND
(log 9). -/
def execRound (n : BitVec 7) (s : State) : Result :=
  if n = 0 ∨ 64 < n.toNat then raise .illegal s
  else if s.phase ≠ .rounding ∨ 64 < s.roundCtr.toNat + n.toNat then raise .sequence s
  else
    finish { s with
      wv := rounds s.w s.roundCtr.toNat n.toNat s.wv
      roundCtr := BitVec.ofNat 32 (s.roundCtr.toNat + n.toNat) }

/-- FOLD (R282). -/
def execFold (s : State) : Result :=
  if s.phase ≠ .rounding ∨ s.roundCtr ≠ 64 then raise .sequence s
  else
    finish { s with
      h := foldWords s.h s.wv, blkIdx := s.blkIdx + 1, roundCtr := 0, phase := .empty }

/-- COMPRESS (R283), legal in every phase. -/
def execCompress (s : State) : Result :=
  if s.noBlock then raise .sequence s
  else
    match s.compressAt s.blkIdx.toNat with
    | none => .fault .bufferRange
    | some t => finish { t with blkIdx := s.blkIdx + 1, roundCtr := 0, phase := .empty }

end Sys2Proof.Machine
end

