-- ==== Sys2Proof/Machine/Control.lean ====
section
/-! DEFINITION. The control commands NOP, INIT and SRESET (41_control.md R226 to R228). A meaning is the whole
completion of its command (R222): what `exec` of the spec gives, and ERR, BUSY, DONE recorded (log 10). -/

namespace Sys2Proof.Machine

/-- INIT's writes (R227): H ← IV, the sequencer back to Block 0. -/
def State.loadIv (s : State) : State :=
  { s with h := iv, blkIdx := 0, roundCtr := 0, phase := .empty }

/-- NOP (R226). -/
def execNop (s : State) : Result := finish s

/-- INIT (R227). -/
def execInit (s : State) : Result := finish s.loadIv

/-- SRESET (R228): R68's values but MSG; completion then leaves DONE = 1. -/
def execSreset (s : State) : Result := finish s.softReset

end Sys2Proof.Machine
end

