-- ==== Sys2Proof/Machine/Padding.lean ====
section
/-! DEFINITION. PAD, the Padding Stage and Block Partitioner (42_padding.md R240), and the padding it shares with
DIGEST. -/

namespace Sys2Proof.Machine

/-- Write `pad(L)` at `MSG[L ..]`, set NBLK and PADDED, restart the sequencer (R240); none where the buffer write is out
of range. PAD and DIGEST use it only when P ≤ MSG_CAP. -/
def State.padInPlace (s : State) : Option State :=
  let l := s.msgLen.toNat
  match s.memWrite l (padBytes s.cfg.lenMode l) with
  | none => none
  | some t =>
    some { t with
      nblk := BitVec.ofNat 32 (nblkOf l), blkIdx := 0, roundCtr := 0, padded := true, phase := .empty }

/-- PAD (R240): CAPACITY when the Padded Message does not fit. -/
def execPad (s : State) : Result :=
  if s.cfg.msgCap < padLen s.msgLen.toNat then raise .capacity s
  else
    match s.padInPlace with
    | none => .fault .bufferRange
    | some t => finish t

end Sys2Proof.Machine
end

