-- ==== Sys2Proof/Machine/Digest.lean ====
section
/-! DEFINITION. FORMAT and DIGEST (45_digest.md R310, R311). -/

namespace Sys2Proof.Machine

/-- HEX ← hexDigest(H) (R310). -/
def State.formatHex (s : State) : State := { s with hex := hexDigest s.h }

/-- Compress the `n` Blocks `j, j+1, ..` in order (the loop of R311). -/
def State.compressFrom (s : State) (j : Nat) : Nat → Option State
  | 0 => some s
  | n + 1 =>
    match s.compressAt j with
    | none => none
    | some t => t.compressFrom (j + 1) n

/-- FORMAT (R310): no precondition, no error. -/
def execFormat (s : State) : Result := finish s.formatHex

/-- DIGEST (R311): pad, H ← IV, every Block, HEX; CAPACITY when the Padded Message does not fit. -/
def execDigest (s : State) : Result :=
  if s.cfg.msgCap < padLen s.msgLen.toNat then raise .capacity s
  else
    match s.padInPlace with
    | none => .fault .bufferRange
    | some t =>
      match t.loadIv.compressFrom 0 (nblkOf s.msgLen.toNat) with
      | none => .fault .bufferRange
      | some u => finish { u with blkIdx := u.nblk, roundCtr := 0, phase := .empty }.formatHex

end Sys2Proof.Machine
end

