-- ==== Sys2Proof/Machine/Dispatch.lean ====
section
/-! DEFINITION. The dispatch of 41_control.md R223: one arm per command, no default arm. -/

namespace Sys2Proof.Machine

def exec (i : Instr) (s : State) : Host.Outcome State Fault Refusal :=
  match i with
  | .nop => Sys2Proof.Machine.execNop s
  | .init => Sys2Proof.Machine.execInit s
  | .pad => Sys2Proof.Machine.execPad s
  | .sched => Sys2Proof.Machine.execSched s
  | .wvload => Sys2Proof.Machine.execWvload s
  | .round n => Sys2Proof.Machine.execRound n s
  | .fold => Sys2Proof.Machine.execFold s
  | .compress => Sys2Proof.Machine.execCompress s
  | .format => Sys2Proof.Machine.execFormat s
  | .digest => Sys2Proof.Machine.execDigest s
  | .sreset => Sys2Proof.Machine.execSreset s

end Sys2Proof.Machine
end

