-- ==== Sys2Proof/Machine/Engine.lean ====
section
/-! DEFINITION. The engine's turn, the completion of the command in PENDING (41_control.md R221 to R223), and what one
turn of any agent does. -/

namespace Sys2Proof.Machine

/-- Completion (R222, R223): decode PENDING and apply the command; a word that does not decode completes with ILLEGAL
(R146, R332). -/
def State.completion (s : State) : Result :=
  match decode s.pending with
  | .ok i => exec i s
  | .error _ => raise .illegal s

/-- The engine's turn: completion is its one step, enabled while BUSY = 1 (R221); idle, it has none and nothing changes
(R371, R384; log 13). -/
def State.engineTurn (s : State) : Result := if s.busy then s.completion else .next s

/-- One turn (R115): a bus transaction, the engine's step or a hardware reset. -/
def State.take (s : State) : Turn → Result
  | .host t => .next (s.serve t)
  | .engine => s.engineTurn
  | .reset => .next s.hardReset

/-- The next word the engine runs is the one issued last: `withFetchWord` issues the word (R220) and gives the engine the
next turn, so that the next step is this command's completion (log 11). -/
def State.issueNow (s : State) (v : Word) : State :=
  { s.issue v with turns := .engine :: s.turns }

end Sys2Proof.Machine
end

