-- ==== Sys2Proof/Machine/Step.lean ====
section
/-! DEFINITION. One step of the machine: the next turn of the interleaving (20_memory.md R115). -/

namespace Sys2Proof.Machine

/-- One step: the first of the coming turns is taken. Where no turn is left, the engine moves: a command in flight
completes (the weak fairness of 41_control.md R221), and an idle block stays as it is. -/
def step (s : State) : Host.Outcome State Fault Refusal :=
  match s.turns with
  | [] => s.engineTurn
  | t :: rest => { s with turns := rest }.take t

/-- `s` with the word `w` of `nbits` bits issued and about to complete, so that the next step runs it (log 11). The
block fetches nothing (10_state.md R52): a command comes by a bus write to CTRL, and this stands for that write. -/
def State.withFetchWord (s : State) (nbits w : Nat) : State :=
  s.issueNow (BitVec.ofNat 32 (w % 2 ^ nbits))

end Sys2Proof.Machine
end

