-- ==== Sys2Proof/Machine/HostProgram.lean ====
section
/-! DEFINITION. The host-side notation of 30_encoding.md R148 to R150, as turns of the host on a block of given
parameters. It is no part of the hardware (D29). -/

namespace Sys2Proof.Machine

/-! ## Offset symbols (R149) -/

def offCtrl : Nat := 0x000
def offStatus : Nat := 0x004
def offIrqEn : Nat := 0x008
def offMsgLen : Nat := 0x00C
def offNblk : Nat := 0x010
def offBlkIdx : Nat := 0x014
def offRoundCtr : Nat := 0x018
def offCapacity : Nat := 0x01C
def offId : Nat := 0x020
def offH (i : Nat) : Nat := 0x040 + 4 * i
def offWv (i : Nat) : Nat := 0x060 + 4 * i
def offW (t : Nat) : Nat := 0x100 + 4 * t
def offHex : Nat := 0x200
def offMsg : Nat := 0x1000

/-! ## Transactions (R148) -/

/-- `wr32 OFF, V`. -/
def wr32 (c : Config) (off : Nat) (v : Word) : Turn := .host (.write (c.base + off) .word v)

/-- `wr8 OFF, V`. -/
def wr8 (c : Config) (off : Nat) (v : Byte) : Turn := .host (.write (c.base + off) .byte (v.setWidth 32))

/-- `rd32 OFF`. -/
def rd32 (c : Config) (off : Nat) : Turn := .host (.read (c.base + off) .word)

/-- `rd8 OFF`. -/
def rd8 (c : Config) (off : Nat) : Turn := .host (.read (c.base + off) .byte)

/-! ## Pseudo-instructions (R150) -/

/-- `cmd M` and `cmd ROUND n`: the assembler refuses a round count outside 1..64. -/
def cmd (c : Config) (i : Instr) : Option Turn :=
  if i.wellFormed then some (wr32 c offCtrl (encode i)) else none

/-- `wait`: poll STATUS until BUSY is 0. How often the host polls before the command completes is left open (R221):
`polls` times here, then the engine's turn, then the poll that reads BUSY = 0. -/
def wait (c : Config) (polls : Nat) : List Turn :=
  List.replicate polls (rd32 c offStatus) ++ [.engine, rd32 c offStatus]

/-- `run M` and `run ROUND n`: `cmd`, then `wait`. -/
def run (c : Config) (i : Instr) (polls : Nat) : Option (List Turn) :=
  (cmd c i).map fun t => t :: wait c polls

/-- The byte writes of `ldmsg`, from `MSG+k` on. -/
def ldbytes (c : Config) (k : Nat) : List Byte → List Turn
  | [] => []
  | b :: bs => wr8 c (offMsg + k) b :: ldbytes c (k + 1) bs

/-- `ldmsg "s"`: the bytes, then the length. -/
def ldmsg (c : Config) (m : List Byte) : List Turn :=
  ldbytes c 0 m ++ [wr32 c offMsgLen (BitVec.ofNat 32 m.length)]

/-- `ack`: clear DONE and OVR. -/
def ack (c : Config) : Turn := wr32 c offStatus 0x22

end Sys2Proof.Machine
end

