-- ==== Sys2Proof/Safety.lean ====
section
/-! DEFINITION. What a safe run is: the invariant of 10_state.md R66, the reachable states, the named start states
and the run and outcome of 70_reset_and_hazards.md R384, R386, and the same machine at another BASE. -/

namespace Sys2Proof.Machine

/-- The buffer's memory is canonical and lies inside `MSG`. -/
abbrev State.MemInv (s : State) : Prop :=
  Memory.wf s.mem ∧ ∀ c ∈ s.mem, c.1 < s.cfg.msgCap

/-- The invariant: legal parameters (R6), a canonical buffer, the four relations of R66, R48's "NBLK = 0 exactly when
PADDED = 0", and R111's "BUSY = 1, DONE = 0" while a command is in flight. (R66's last line, CPHASE ≠ 3 and ERR ≤ 3,
holds by the types of the two fields: log 7.) -/
structure State.Inv (s : State) : Prop where
  legal : s.cfg.Legal
  mem : s.MemInv
  blk_le : s.blkIdx ≤ s.nblk
  round_zero : s.phase ≠ .rounding → s.roundCtr = 0
  round_le : s.roundCtr ≤ 64
  phase_padded : s.phase ≠ .empty → s.padded = true ∧ s.blkIdx < s.nblk
  padded_nblk : s.padded = true →
    s.nblk.toNat = nblkOf s.msgLen.toNat ∧ 1 ≤ s.nblk ∧ nblkOf s.msgLen.toNat * 64 ≤ s.cfg.msgCap
  unpadded : s.padded = false → s.nblk = 0
  busy_done : s.busy = true → s.done = false

/-- HEX holds what reset leaves (zeros) or 64 lowercase hexadecimal characters (R46, R314). -/
abbrev State.HexInv (s : State) : Prop :=
  s.hex = Vector.replicate 64 0 ∨
    ∀ b ∈ s.hex.toList, (0x30 ≤ b ∧ b ≤ 0x39) ∨ (0x61 ≤ b ∧ b ≤ 0x66)

/-- The next state of a result, none for a fault or a refusal. -/
def nextState : Result → Option State
  | .next s => some s
  | .fault _ => none
  | .refused _ => none

/-- The states of the executions of the block: from a hardware reset in any legal configuration, by steps, the host and
the reset input deciding at every point what comes next. -/
inductive Reachable : State → Prop where
  | start (c : Config) (h : c.Legal) : Reachable (State.resetOf c)
  | turns (s : State) (ts : List Turn) (h : Reachable s) : Reachable { s with turns := ts }
  | step (s t : State) (h : Reachable s) (hs : Machine.step s = .next t) : Reachable t

/-- `IdleClean(s)` (R386). -/
abbrev State.IdleClean (s : State) : Prop :=
  s.busy = false ∧ s.done = false ∧ s.err = .ok ∧ s.ovr = false ∧ s.irq = false

/-- `Loaded(s, m)` (R386). -/
abbrev State.Loaded (s : State) (m : List Byte) : Prop :=
  s.IdleClean ∧ s.msgLen.toNat = m.length ∧ m.length + 9 ≤ s.cfg.msgCap ∧ s.message = m

/-- The next step is the completion of the command in flight (R221). -/
abbrev State.CompletesNext (s : State) : Prop := s.busy = true ∧ (s.turns = [] ∨ s.turns.head? = some .engine)

/-- The next step is a hardware reset (R370). -/
abbrev State.ResetsNext (s : State) : Prop := s.turns.head? = some .reset

/-- `k` steps, stopping at the first fault or refusal. -/
def runSteps : Nat → State → Result
  | 0, s => .next s
  | k + 1, s =>
    match step s with
    | .next t => runSteps k t
    | .fault r => .fault r
    | .refused r => .refused r

/-- Commands run one after the other, each to its completion, with no bus transaction between them (R312); none where
one stops. -/
def runCommands : List Instr → State → Option State
  | [], s => some s
  | i :: rest, s =>
    match exec i s with
    | .next t => runCommands rest t
    | .fault _ => none
    | .refused _ => none

/-- Bus transactions served one after the other (R115). -/
def serveAll (s : State) (ts : List BusTxn) : State := ts.foldl State.serve s

/-- A transaction that may come while a command runs without touching what the command or its report uses: a read, a
write that is a bus error, or a write that BUSY = 1 drops (R229). -/
def quietWhileBusy (c : Config) : BusTxn → Bool
  | .read _ _ => true
  | .write addr size _ =>
    match accessTarget c .write addr size with
    | none => true
    | some r => lockedTarget r

/-- The architectural state of R40: everything but the model's own bookkeeping of turns, answers and drawn reads. -/
def State.arch (s : State) : State := { s with turns := [], replies := [], draws := 0 }

/-- The value that a bus read made while BUSY = 0 returned: its data, the 0 of a bus error among them (R108, R384). -/
def Reply.readValue (r : Reply) : Option Word :=
  match r.busy, r.response with
  | false, .readOk v => some v
  | false, .readError v => some v
  | _, _ => none

/-- The values returned by the reads made while BUSY = 0 in the run from `s` that ends at `t`, the oldest first (R384). -/
def State.outcomeReads (s t : State) : List Word :=
  (t.replies.take (t.replies.length - s.replies.length)).reverse.filterMap Reply.readValue

/-- The outcome of a run (R384). -/
structure RunOutcome where
  /-- The architectural state at its end. -/
  final : State
  /-- The values its reads returned while BUSY = 0, the oldest first. -/
  reads : List Word
  deriving DecidableEq, Repr

/-- The outcome of the run from `s` that ends at `t` (R384). -/
def State.outcome (s t : State) : RunOutcome := { final := t.arch, reads := s.outcomeReads t }

/-- The run of a host program from `s` (R384): its bus transactions, with the engine's turns where they come between
them, in the order `ts`. It ends after the last one, or, if that leaves BUSY = 1, at the completion that follows. -/
def hostRun (s : State) (ts : List Turn) : Result :=
  match runSteps ts.length { s with turns := ts } with
  | .next t => if t.busy then step t else .next t
  | .fault r => .fault r
  | .refused r => .refused r

/-! ## The place of the window (R8) -/

/-- The same machine with its window at `b`. -/
def State.rebase (s : State) (b : Nat) : State := { s with cfg := { s.cfg with base := b } }

/-- A bus transaction given by its offset, in a window at `b`. -/
def BusTxn.atBase (b : Nat) : BusTxn → BusTxn
  | .read off size => .read (b + off) size
  | .write off size v => .write (b + off) size v

/-- A turn whose transaction is given by its offset, in a window at `b`. -/
def Turn.atBase (b : Nat) : Turn → Turn
  | .host x => .host (x.atBase b)
  | .engine => .engine
  | .reset => .reset

/-- The machine with its window at `b` and the coming turns `ts`, their transactions given by offsets. -/
def State.placedAt (s : State) (b : Nat) (ts : List Turn) : State :=
  { s.rebase b with turns := ts.map (Turn.atBase b) }

/-- The result with its next state changed, a stop as it is. -/
def mapNext (f : State → State) : Result → Result
  | .next s => .next (f s)
  | .fault r => .fault r
  | .refused r => .refused r

end Sys2Proof.Machine
end

