-- ==== Sys2Proof/Certificates/Slice0/Obligations.lean ====
section
/-! DEFINITION. The statements about the model, from the numbered rules of spec/. A docstring names the rule, or says
what a derived statement rests on. -/

open Sys2Proof Sys2Proof.Machine

/-! ## Command words -/

/-- 30_encoding.md, sections 1 and 2: no bit of a legal command is dropped; the decoder gives back the command. -/
def Obligations.DecodeEncodeRoundTrip : Prop :=
  ∀ i : Instr, i.wellFormed = true → decode (encode i) = .ok i

/-- R144, with the fields read by arithmetic from the word: which words decode, to what, and the 74 words of R145; completion
applies it to PENDING. -/
def Obligations.DecodeIsTheRule : Prop :=
  (∀ (c : Word) (i : Instr), decode c = .ok i ↔
    (c.toNat / 2 ^ 15 = 0 ∧ c.toNat / 2 ^ 4 % 2 ^ 4 = 0 ∧
      ((c.toNat / 2 ^ 8 % 2 ^ 7 = 0 ∧
          (c.toNat % 2 ^ 4, i) ∈
            [(0x0, Instr.nop), (0x1, .init), (0x2, .pad), (0x3, .sched), (0x4, .wvload), (0x6, .fold),
             (0x7, .compress), (0x8, .format), (0x9, .digest), (0xA, .sreset)]) ∨
        (c.toNat % 2 ^ 4 = 0x5 ∧ 1 ≤ c.toNat / 2 ^ 8 % 2 ^ 7 ∧ c.toNat / 2 ^ 8 % 2 ^ 7 ≤ 64 ∧
          i = .round (BitVec.ofNat 7 (c.toNat / 2 ^ 8 % 2 ^ 7)))))) ∧
  (∀ c : Word, (∃ i, decode c = .ok i) ↔
    (c ∈ ([0x0, 0x1, 0x2, 0x3, 0x4, 0x6, 0x7, 0x8, 0x9, 0xA] : List Word) ∨
      ∃ n : Nat, 1 ≤ n ∧ n ≤ 64 ∧ c = BitVec.ofNat 32 (0x5 + n * 0x100))) ∧
  (∀ s : State, s.completion = match decode s.pending with | .ok i => exec i s | .error _ => raise .illegal s)

/-- 95_test_vectors.md, section 2.7: words written out bit by bit from the encodings decode as the table says. -/
def Obligations.SampleWordsDecode : Prop :=
  decode 0b00000000000000000000000000000000#32 = .ok .nop ∧
  decode 0b00000000000000000000000000000001#32 = .ok .init ∧
  decode 0b00000000000000000000000000000010#32 = .ok .pad ∧
  decode 0b00000000000000000000000000000011#32 = .ok .sched ∧
  decode 0b00000000000000000011111100000101#32 = .ok (.round 63) ∧
  decode 0b00000000000000000100000000000101#32 = .ok (.round 64) ∧
  decode 0b00000000000000000000000000001001#32 = .ok .digest ∧
  decode 0b00000000000000000100000100000101#32 = .error .roundCount ∧
  decode 0b00000000000000000000000100000010#32 = .error .strayCount ∧
  decode 0b00000000000000000000000001000101#32 = .error .reservedBits ∧
  decode 0b10000000000000000000000000000001#32 = .error .reservedBits ∧
  decode 0b00000000000000000000000000001011#32 = .error .reservedOp

/-! ## The step -/

/-- 41_control.md, section 1: with a command in flight, the engine's turn is `exec` of the command PENDING decodes to,
on the state with that turn taken off the list; with no turn left it is `exec` on the state itself. `withFetchWord` makes
the next step such a turn. -/
def Obligations.StepRunsTheDecodedCommand : Prop :=
  (∀ (s : State) (rest : List Turn) (i : Instr), s.busy = true → s.turns = .engine :: rest →
    decode s.pending = .ok i → step s = exec i { s with turns := rest }) ∧
  (∀ (s : State) (i : Instr), s.busy = true → s.turns = [] → decode s.pending = .ok i → step s = exec i s) ∧
  (∀ (s : State) (nbits w : Nat) (i : Instr), decodeTableWord nbits w = some i →
    step (s.withFetchWord nbits w) = exec i (s.issue (BitVec.ofNat 32 (w % 2 ^ nbits))))

/-- 20_memory.md, section 5: the first turn is taken, whole: a bus transaction is served, the reset input resets, and an
engine with no command in flight has no step. -/
def Obligations.StepTakesTheFirstTurn : Prop :=
  ∀ (s : State) (rest : List Turn),
    (∀ x : BusTxn, s.turns = .host x :: rest → step s = .next ({ s with turns := rest }.serve x)) ∧
    (s.turns = .reset :: rest → step s = .next { s with turns := rest }.hardReset) ∧
    (s.busy = false → s.turns = .engine :: rest → step s = .next { s with turns := rest }) ∧
    (s.busy = false → s.turns = [] → step s = .next s)

/-- R220: a word write to CTRL while BUSY = 0 stores the word in PENDING, sets BUSY, clears DONE (so irq is 0), answers
without an error and changes nothing else; while BUSY = 1 it is dropped and only sets OVR. -/
def Obligations.IssueStoresTheWord : Prop :=
  ∀ (s : State) (v : Word),
    (s.busy = false →
      s.serve (.write s.cfg.base .word v) =
        { s with pending := v, busy := true, done := false,
                 replies := { busy := false, response := .writeOk } :: s.replies } ∧
      (s.serve (.write s.cfg.base .word v)).irq = false) ∧
    (s.busy = true →
      s.serve (.write s.cfg.base .word v) =
        { s with ovr := true, replies := { busy := true, response := .writeOk } :: s.replies })

/-- R224: whatever command, composite or not, decodable or not, and whatever state, a completion ends BUSY and sets DONE,
and one that records an error code changes nothing but ERR, BUSY and DONE. -/
def Obligations.ErrorsChangeNothing : Prop :=
  ∀ (i : Instr) (s t : State), (exec i s = .next t ∨ s.completion = .next t) →
    t.busy = false ∧ t.done = true ∧
    (t.err ≠ .ok → t = { s with err := t.err, busy := false, done := true })

/-- R332: the completion, on the engine's turn or with no turn left, records ILLEGAL exactly for the PENDING words the rule
lists, and then nothing else changes. The list of turns, from which the engine's turn is taken, is the model's (log 3). -/
def Obligations.IllegalWordsRecordIllegal : Prop :=
  ∀ s : State, s.CompletesNext →
    ((0xB ≤ s.pending.toNat % 16 ∨ s.pending.toNat / 2 ^ 15 ≠ 0 ∨ s.pending.toNat / 2 ^ 4 % 2 ^ 4 ≠ 0 ∨
        (s.pending.toNat % 16 = 5 ∧
          (s.pending.toNat / 2 ^ 8 % 2 ^ 7 = 0 ∨ 64 < s.pending.toNat / 2 ^ 8 % 2 ^ 7)) ∨
        (s.pending.toNat % 16 ≠ 5 ∧ s.pending.toNat / 2 ^ 8 % 2 ^ 7 ≠ 0)) →
      step s = .next { s with turns := s.turns.tail, err := .illegal, busy := false, done := true }) ∧
    (∀ t : State, step s = .next t → t.err = .illegal →
      (0xB ≤ s.pending.toNat % 16 ∨ s.pending.toNat / 2 ^ 15 ≠ 0 ∨ s.pending.toNat / 2 ^ 4 % 2 ^ 4 ≠ 0 ∨
        (s.pending.toNat % 16 = 5 ∧
          (s.pending.toNat / 2 ^ 8 % 2 ^ 7 = 0 ∨ 64 < s.pending.toNat / 2 ^ 8 % 2 ^ 7)) ∨
        (s.pending.toNat % 16 ≠ 5 ∧ s.pending.toNat / 2 ^ 8 % 2 ^ 7 ≠ 0)))

/-- R333: PAD and DIGEST record CAPACITY exactly when the Padded Message does not fit, that is when MSG_LEN > MSG_CAP − 9,
and no other command records it. -/
def Obligations.CapacityExactlyWhenItDoesNotFit : Prop :=
  ∀ s : State, s.cfg.Legal →
    (s.cfg.msgCap < padLen s.msgLen.toNat ↔ s.cfg.msgCap - 9 < s.msgLen.toNat) ∧
    (s.cfg.msgCap - 9 < s.msgLen.toNat →
      exec .pad s = .next { s with err := .capacity, busy := false, done := true } ∧
      exec .digest s = .next { s with err := .capacity, busy := false, done := true }) ∧
    (∀ (i : Instr) (t : State), exec i s = .next t → t.err = .capacity →
      (i = .pad ∨ i = .digest) ∧ s.cfg.msgCap - 9 < s.msgLen.toNat)

/-- R334: the table of the SEQUENCE conditions, in both directions; no other command records SEQUENCE. -/
def Obligations.SequenceExactlyOutOfOrder : Prop :=
  ∀ (i : Instr) (s : State), i.wellFormed = true →
    ((∃ t : State, exec i s = .next t ∧ t.err = .sequence) ↔
      ((i = .sched ∨ i = .compress) ∧ (s.padded = false ∨ s.nblk.toNat ≤ s.blkIdx.toNat)) ∨
      (i = .wvload ∧ s.phase = .empty) ∨
      (∃ n : BitVec 7, i = .round n ∧ (s.phase ≠ .rounding ∨ 64 < s.roundCtr.toNat + n.toNat)) ∨
      (i = .fold ∧ (s.phase ≠ .rounding ∨ s.roundCtr.toNat ≠ 64)))

/-! ## Invariants, progress and the schedule of the agents -/

/-- R68: what hardware reset leaves, from any state and so also while BUSY = 1, and what SRESET leaves: the same but MSG,
which it keeps, and DONE, which its completion sets (R228). Each byte of MSG after hardware reset is a draw of the new
reset. -/
def Obligations.ResetValues : Prop :=
  ∀ s : State,
    (∀ t : State, (t = s.hardReset ∨ exec .sreset s = .next t) →
      t.h = #v[0x6a09e667, 0xbb67ae85, 0x3c6ef372, 0xa54ff53a, 0x510e527f, 0x9b05688c, 0x1f83d9ab, 0x5be0cd19] ∧
      (∀ i : Fin 8, t.wv[i] = 0) ∧ (∀ i : Fin 64, t.w[i] = 0) ∧ (∀ k : Fin 64, t.hex[k] = 0) ∧
      t.msgLen = 0 ∧ t.nblk = 0 ∧ t.blkIdx = 0 ∧ t.roundCtr = 0 ∧
      t.busy = false ∧ t.err = .ok ∧ t.ovr = false ∧ t.padded = false ∧ t.phase = .empty ∧
      t.cfg = s.cfg ∧ t.doneIe = false ∧ t.pending = 0 ∧ t.irq = false) ∧
    s.hardReset.done = false ∧
    s.hardReset.statusWord = (if s.cfg.lenMode = .ref32 then 0x00000000 else 0x00000200) ∧
    (∀ k : Nat, s.hardReset.msgByte k = Config.msgDraw (s.msgEpoch + 1) k) ∧
    (∃ t : State, exec .sreset s = .next t ∧ t.done = true ∧ ∀ k : Nat, t.msgByte k = s.msgByte k)

/-- 10_state.md R66 with 00_scope.md R6: the state after reset of every legal configuration meets the invariant, and the
reference configuration is legal. -/
def Obligations.ResetMeetsTheInvariant : Prop :=
  (∀ c : Config, c.Legal → (State.resetOf c).Inv ∧ (State.resetOf c).HexInv) ∧
  Config.reference.Legal ∧ State.reset.Inv ∧ State.reset.IdleClean

/-- 10_state.md, section 4 (the relations of R66, which the spec derives from its command rules): from EVERY state that
meets the invariant, whatever turn comes, the step's next state meets it. -/
def Obligations.EveryStepKeepsTheInvariant : Prop :=
  ∀ s t : State, s.Inv → step s = .next t → t.Inv

/-- 60_exceptions.md, section 1 ("None of them stops the block") and 20_memory.md R121's range: from every state that
meets the invariant the step gives a next state, never a fault and never a refusal. -/
def Obligations.NoStepStops : Prop :=
  ∀ s : State, s.Inv → ∃ t : State, step s = .next t

/-- 10_state.md, section 4: every state that any host, any schedule and any resets can reach in any legal configuration
meets the invariant, and HEX holds zeros or 64 lowercase hexadecimal characters. -/
def Obligations.ReachableStatesMeetTheInvariant : Prop :=
  ∀ s : State, Reachable s → s.Inv ∧ s.HexInv

/-- 45_digest.md, Laws (R314, which the spec derives), as an invariant of every step: HEX holds what reset leaves or 64
bytes of [0-9a-f]. -/
def Obligations.EveryStepKeepsHexLowercase : Prop :=
  ∀ s t : State, s.HexInv → step s = .next t → t.HexInv

/-- 41_control.md, section 1 (R221's "finite time"), on the model's list of turns (log 3): once the turns that are coming
have been taken, one step more ends BUSY. And so 70_reset_and_hazards.md, section 5 (R384), on the model's list of answers
(log 4): a host program's run ends after its last turn, or at the completion that follows if that leaves BUSY = 1, with
BUSY = 0 and no turn left; its outcome is the architectural state there and the values its reads returned: over one step, of
a read made while BUSY = 0 the value of its target, or the 0 of a bus error, and of every other turn nothing; over two parts
of a run, those of the first and then those of the second. -/
def Obligations.EveryCommandCompletes : Prop :=
  (∀ s : State, s.Inv →
    ∃ t : State, runSteps (s.turns.length + 1) s = .next t ∧ t.busy = false ∧ t.turns = []) ∧
  (∀ (s : State) (ts : List Turn), s.Inv → ∃ t : State, hostRun s ts = .next t ∧ t.busy = false ∧ t.turns = [] ∧
    s.outcome t = { final := { t with turns := [], replies := [], draws := 0 }, reads := s.outcomeReads t }) ∧
  (∀ (s t : State) (ts : List Turn), runSteps ts.length { s with turns := ts } = .next t →
    hostRun s ts = if t.busy then t.completion else .next t) ∧
  (∀ s t : State, step s = .next t →
    s.outcomeReads t =
      match s.turns.head? with
      | some (.host (.read addr size)) =>
        if s.busy then []
        else
          match accessTarget s.cfg .read addr size with
          | none => [0]
          | some r => [s.readTarget size r]
      | _ => []) ∧
  (∀ (m n : Nat) (s t u : State), runSteps m s = .next t → runSteps n t = .next u →
    s.outcomeReads u = s.outcomeReads t ++ t.outcomeReads u)

/-- 41_control.md, Laws of issue and completion (R229, which the spec derives): reads, bus errors and dropped writes made
while a command runs change nothing of its result but OVR; none of them ends BUSY. -/
def Obligations.LatencyDoesNotChangeTheResult : Prop :=
  ∀ (s t : State) (xs : List BusTxn), s.busy = true → (∀ x ∈ xs, quietWhileBusy s.cfg x = true) →
    s.completion = .next t →
    (serveAll s xs).busy = true ∧
    ∃ u : State, (serveAll s xs).completion = .next u ∧ { u.arch with ovr := t.ovr } = t.arch

/-- 10_state.md R60, R63 and 00_scope.md R6: no step changes the parameters, so CAPACITY and LENMODE are constants of the
machine. -/
def Obligations.NoStepChangesTheParameters : Prop :=
  ∀ s t : State, step s = .next t → t.cfg = s.cfg

/-- 10_state.md, sections 2 to 4 (the writers that R41, R42, R44 to R51, R57, R59, R62 and R64 name): a command other than
the writers of an element leaves that element as it was; for MSG, every byte of it. -/
def Obligations.OnlyTheNamedCommandsWrite : Prop :=
  ∀ (i : Instr) (s t : State), exec i s = .next t →
    (i ∉ [Instr.pad, .digest] → ∀ k : Nat, t.msgByte k = s.msgByte k) ∧
    (i ∉ [Instr.format, .digest, .sreset] → t.hex = s.hex) ∧
    (i ∉ [Instr.init, .fold, .compress, .digest, .sreset] → t.h = s.h) ∧
    (i ∉ [Instr.sched, .compress, .digest, .sreset] → t.w = s.w) ∧
    (i ∉ [Instr.wvload, .compress, .digest, .sreset] ∧ (∀ n, i ≠ .round n) → t.wv = s.wv) ∧
    (i ∉ [Instr.pad, .digest, .sreset] → t.nblk = s.nblk ∧ t.padded = s.padded) ∧
    (i ∉ [Instr.init, .pad, .fold, .compress, .digest, .sreset] → t.blkIdx = s.blkIdx) ∧
    (i ∈ [Instr.nop, .format] → t.roundCtr = s.roundCtr) ∧
    (i ∈ [Instr.nop, .format] ∨ (∃ n, i = .round n) → t.phase = s.phase) ∧
    (i ≠ .sreset → t.msgLen = s.msgLen ∧ t.doneIe = s.doneIe ∧ t.ovr = s.ovr ∧ t.pending = s.pending) ∧
    (∀ k : Nat, k < s.msgLen.toNat → t.msgByte k = s.msgByte k) ∧
    t.cfg = s.cfg ∧ t.msgEpoch = s.msgEpoch ∧ t.draws = s.draws ∧ t.turns = s.turns ∧ t.replies = s.replies

/-- 10_state.md, sections 2, 4 and 7 (the "only" of R44, R46, R54, R55, R56, R59 and R64), over every step: BUSY starts by
an issue and ends by a completion or a reset; DONE is set by a completion alone and cleared by an issue, a write of 1 to
STATUS bit 1 or a reset (SRESET's completion leaves it 1); ERR is written by a completion or a reset; PADDED is set by PAD
and DIGEST and cleared by a write of MSG_LEN, SRESET or a reset; HEX, W and PENDING change only by the events named. -/
def Obligations.OnlyTheNamedEventsChangeTheStatus : Prop :=
  ∀ s t : State, step s = .next t →
    (s.busy = false → t.busy = true →
      ∃ (rest : List Turn) (v : Word), s.turns = .host (.write s.cfg.base .word v) :: rest ∧ t.pending = v) ∧
    (s.busy = true → t.busy = false → s.CompletesNext ∨ s.ResetsNext) ∧
    (s.CompletesNext → t.busy = false ∧ t.done = true) ∧
    (s.done = false → t.done = true → s.CompletesNext) ∧
    (s.done = true → t.done = false → s.ResetsNext ∨
      ∃ (rest : List Turn) (v : Word),
        (s.busy = false ∧ s.turns = .host (.write s.cfg.base .word v) :: rest) ∨
          (s.turns = .host (.write (s.cfg.base + 0x004) .word v) :: rest ∧ v.getLsbD 1 = true)) ∧
    (t.err ≠ s.err → s.CompletesNext ∨ s.ResetsNext) ∧
    (t.hex ≠ s.hex → s.ResetsNext ∨ (s.CompletesNext ∧
      (decode s.pending = .ok .format ∨ decode s.pending = .ok .digest ∨ decode s.pending = .ok .sreset))) ∧
    (t.w ≠ s.w → s.ResetsNext ∨ (s.CompletesNext ∧ (decode s.pending = .ok .sched ∨ decode s.pending = .ok .compress ∨
      decode s.pending = .ok .digest ∨ decode s.pending = .ok .sreset))) ∧
    (s.padded = false → t.padded = true →
      s.CompletesNext ∧ (decode s.pending = .ok .pad ∨ decode s.pending = .ok .digest)) ∧
    (s.padded = true → t.padded = false → s.ResetsNext ∨ (s.CompletesNext ∧ decode s.pending = .ok .sreset) ∨
      (s.busy = false ∧
        ∃ (rest : List Turn) (v : Word), s.turns = .host (.write (s.cfg.base + 0x00C) .word v) :: rest)) ∧
    (t.pending ≠ s.pending → s.ResetsNext ∨ (s.CompletesNext ∧ decode s.pending = .ok .sreset) ∨
      (s.busy = false ∧ t.busy = true))

/-- R339 and R225: irq is the level DONE_IE and DONE; a completion with DONE_IE = 1, of a word that decodes or of one that
does not, raises it whatever the code, but for SRESET's, which clears DONE_IE; a write of 1 to STATUS bit 1, the issue of a
command, a write of 0 to DONE_IE, SRESET and hardware reset drop it, and over every step nothing else does. -/
def Obligations.IrqIsRaisedByCompletionAndCleared : Prop :=
  (∀ s : State, s.irq = (s.doneIe && s.done)) ∧
  (∀ (i : Instr) (s t : State), exec i s = .next t → t.irq = (s.doneIe && decide (i ≠ .sreset))) ∧
  (∀ s t : State, s.completion = .next t →
    (decode s.pending ≠ .ok .sreset → t.irq = s.doneIe) ∧ (decode s.pending = .ok .sreset → t.irq = false)) ∧
  (∀ (s : State) (v : Word), v.getLsbD 1 = true → (s.serve (.write (s.cfg.base + 4) .word v)).irq = false) ∧
  (∀ (s : State) (v : Word), s.busy = false → (s.serve (.write s.cfg.base .word v)).irq = false) ∧
  (∀ (s : State) (v : Word), v.getLsbD 0 = false → (s.serve (.write (s.cfg.base + 8) .word v)).irq = false) ∧
  (∀ s : State, s.hardReset.irq = false) ∧
  (∀ s t : State, step s = .next t → s.irq = true → t.irq = false →
    s.ResetsNext ∨ (s.CompletesNext ∧ decode s.pending = .ok .sreset) ∨
    ∃ (rest : List Turn) (v : Word),
      (s.busy = false ∧ s.turns = .host (.write s.cfg.base .word v) :: rest) ∨
        (s.turns = .host (.write (s.cfg.base + 4) .word v) :: rest ∧ v.getLsbD 1 = true) ∨
        (s.turns = .host (.write (s.cfg.base + 8) .word v) :: rest ∧ v.getLsbD 0 = false))

/-! ## The commands: result, errors and everything that stays unchanged, in one equation each -/

/-- R226: NOP's word is 0, and its completion changes ERR, BUSY and DONE only; it never errs. -/
def Obligations.NopCompletes : Prop :=
  decode 0x00000000 = .ok .nop ∧
  (∀ s : State, exec .nop s = .next { s with err := .ok, busy := false, done := true }) ∧
  (∀ s t : State, s.statusWord = 0 → exec .nop s = .next t → t.statusWord = 0x00000002)

/-- R227: INIT loads the eight words of IV and puts the sequencer back to Block 0, in every phase; never an error; INIT
twice equals INIT once. -/
def Obligations.InitLoadsTheInitialState : Prop :=
  decode 0x00000001 = .ok .init ∧
  ∀ s : State, ∃ t : State, exec .init s = .next t ∧
    t = { s with
      h := #v[0x6a09e667, 0xbb67ae85, 0x3c6ef372, 0xa54ff53a, 0x510e527f, 0x9b05688c, 0x1f83d9ab, 0x5be0cd19]
      blkIdx := 0, roundCtr := 0, phase := .empty, err := .ok, busy := false, done := true } ∧
    exec .init t = .next t

/-- R228: SRESET gives every element of R68 but MSG its reset value; completion then leaves DONE = 1. The turns, the
answers and the draws are the model's own and stay. -/
def Obligations.SresetRestoresTheResetValues : Prop :=
  decode 0x0000000A = .ok .sreset ∧
  ∀ s : State, ∃ t : State, exec .sreset s = .next t ∧
    t = { State.resetOf s.cfg with
      mem := s.mem, msgEpoch := s.msgEpoch, draws := s.draws, turns := s.turns, replies := s.replies, done := true } ∧
    t.statusWord = (if s.cfg.lenMode = .ref32 then 0x00000002 else 0x00000202) ∧ t.irq = false

/-- R240: PAD. The bytes of MSG after it are spelled out: 0x80 at L, zeros, the 8 bytes of the length field, most
significant first, ending at P − 1, and every other byte as before; every other element but the six it names and the
completion's stays; CAPACITY otherwise, with nothing changed. -/
def Obligations.PadPadsInPlace : Prop :=
  decode 0x00000002 = .ok .pad ∧
  ∀ s : State,
    (s.cfg.msgCap < padLen s.msgLen.toNat →
      exec .pad s = .next { s with err := .capacity, busy := false, done := true }) ∧
    (padLen s.msgLen.toNat ≤ s.cfg.msgCap → ∃ t : State, exec .pad s = .next t ∧
      t = { s with
        mem := t.mem, nblk := BitVec.ofNat 32 (padLen s.msgLen.toNat / 64), blkIdx := 0, roundCtr := 0,
        padded := true, phase := .empty, err := .ok, busy := false, done := true } ∧
      ∀ k : Nat, t.msgByte k =
        if k < s.msgLen.toNat ∨ padLen s.msgLen.toNat ≤ k then s.msgByte k
        else if k = s.msgLen.toNat then 0x80
        else if k < padLen s.msgLen.toNat - 8 then 0
        else BitVec.ofNat 8
          ((match s.cfg.lenMode with
            | .ref32 => 8 * s.msgLen.toNat % 2 ^ 32
            | .full64 => 8 * s.msgLen.toNat) / 2 ^ (8 * (padLen s.msgLen.toNat - 1 - k))))

/-- R260: SCHED. `W` is given by the recurrence of R186 on the Block's bytes as they are now; everything else but
ROUNDCTR, CPHASE and the completion's fields stays; SEQUENCE otherwise, with nothing changed. The invariant rules out a
Block outside the buffer (R121). -/
def Obligations.SchedComputesTheSchedule : Prop :=
  decode 0x00000003 = .ok .sched ∧
  ∀ s : State, s.Inv →
    ((s.padded = false ∨ s.nblk.toNat ≤ s.blkIdx.toNat) →
      exec .sched s = .next { s with err := .sequence, busy := false, done := true }) ∧
    (s.padded = true → s.blkIdx.toNat < s.nblk.toNat → ∃ t : State, exec .sched s = .next t ∧
      t = { s with
        w := t.w, roundCtr := 0, phase := .scheduled, err := .ok, busy := false, done := true } ∧
      (∀ k : Nat, k < 16 → t.w[k]! =
        be32 (s.msgByte (64 * s.blkIdx.toNat + 4 * k)) (s.msgByte (64 * s.blkIdx.toNat + 4 * k + 1))
          (s.msgByte (64 * s.blkIdx.toNat + 4 * k + 2)) (s.msgByte (64 * s.blkIdx.toNat + 4 * k + 3))) ∧
      (∀ k : Nat, 16 ≤ k → k < 64 → t.w[k]! =
        t.w[k - 16]! + smallSigma0 t.w[k - 15]! + t.w[k - 7]! + smallSigma1 t.w[k - 2]!))

/-- R280: WVLOAD. -/
def Obligations.WvloadSeedsTheWorkingVariables : Prop :=
  decode 0x00000004 = .ok .wvload ∧
  ∀ s : State,
    (s.phase = .empty → exec .wvload s = .next { s with err := .sequence, busy := false, done := true }) ∧
    (s.phase ≠ .empty → ∃ t : State, exec .wvload s = .next t ∧
      t = { s with
        wv := s.h, roundCtr := 0, phase := .rounding, err := .ok, busy := false, done := true } ∧
      exec .wvload t = .next t)

/-- R281, with the round of R187 spelled out: `ROUND N` passes through N working-variable vectors, each made from the one
before it; everything else but WV, ROUNDCTR and the completion's fields stays; SEQUENCE otherwise, with nothing changed. -/
def Obligations.RoundPerformsTheNextRounds : Prop :=
  (∀ n : Nat, 1 ≤ n → n ≤ 64 →
    decode (BitVec.ofNat 32 (0x00000005 + n * 0x100)) = .ok (.round (BitVec.ofNat 7 n))) ∧
  ∀ (n : BitVec 7) (s : State), 1 ≤ n.toNat → n.toNat ≤ 64 →
    ((s.phase ≠ .rounding ∨ 64 < s.roundCtr.toNat + n.toNat) →
      exec (.round n) s = .next { s with err := .sequence, busy := false, done := true }) ∧
    (s.phase = .rounding → s.roundCtr.toNat + n.toNat ≤ 64 →
      ∃ (t : State) (v : Nat → Vector Word 8), exec (.round n) s = .next t ∧
      t = { s with
        wv := v n.toNat, roundCtr := BitVec.ofNat 32 (s.roundCtr.toNat + n.toNat), err := .ok, busy := false, done := true } ∧
      v 0 = s.wv ∧
      ∀ k : Nat, k < n.toNat → ∃ t1 t2 : Word,
        t1 = (v k)[7] + bigSigma1 (v k)[4] + ch (v k)[4] (v k)[5] (v k)[6] +
          roundConstant (s.roundCtr.toNat + k) + s.w[s.roundCtr.toNat + k]! ∧
        t2 = bigSigma0 (v k)[0] + maj (v k)[0] (v k)[1] (v k)[2] ∧
        v (k + 1) = #v[t1 + t2, (v k)[0], (v k)[1], (v k)[2], (v k)[3] + t1, (v k)[4], (v k)[5], (v k)[6]])

/-- R282: FOLD; a second FOLD right after it is SEQUENCE. -/
def Obligations.FoldAddsTheWorkingVariables : Prop :=
  decode 0x00000006 = .ok .fold ∧
  ∀ s : State,
    ((s.phase ≠ .rounding ∨ s.roundCtr.toNat ≠ 64) →
      exec .fold s = .next { s with err := .sequence, busy := false, done := true }) ∧
    (s.phase = .rounding → s.roundCtr.toNat = 64 → ∃ t : State, exec .fold s = .next t ∧
      t = { s with
        h := t.h, blkIdx := s.blkIdx + 1, roundCtr := 0, phase := .empty, err := .ok, busy := false, done := true } ∧
      (∀ i : Fin 8, t.h[i].toNat = (s.h[i].toNat + s.wv[i].toNat) % 2 ^ 32) ∧
      (s.Inv → t.blkIdx.toNat = s.blkIdx.toNat + 1 ∧ t.blkIdx.toNat ≤ t.nblk.toNat) ∧
      exec .fold t = .next { t with err := .sequence })

/-- 44_compression.md, R283's pseudocode: COMPRESS. `B` is the Block's 64 bytes of the buffer as they are now; the invariant
rules out a Block outside the buffer (R121). That WV is written in phases SCHEDULED and ROUNDING too is the model's reading
of R283 against 70_reset_and_hazards.md R381 (log 17). -/
def Obligations.CompressCompressesTheBlock : Prop :=
  decode 0x00000007 = .ok .compress ∧
  ∀ s : State, s.Inv →
    ((s.padded = false ∨ s.nblk.toNat ≤ s.blkIdx.toNat) →
      exec .compress s = .next { s with err := .sequence, busy := false, done := true }) ∧
    (s.padded = true → s.blkIdx.toNat < s.nblk.toNat → ∃ (t : State) (b : Vector Byte 64),
      exec .compress s = .next t ∧
      (∀ k : Fin 64, b[k] = s.msgByte (64 * s.blkIdx.toNat + k.val)) ∧
      t = { s with
        w := schedule b, wv := rounds (schedule b) 0 64 s.h, h := compressBlock s.h b,
        blkIdx := s.blkIdx + 1, roundCtr := 0, phase := .empty, err := .ok, busy := false, done := true } ∧
      (∀ i : Fin 8, t.h[i] = s.h[i] + t.wv[i]) ∧ t.blkIdx.toNat = s.blkIdx.toNat + 1)

/-- R310, with R189's characters by number: FORMAT writes HEX from H, eight characters a word, and nothing else; never an
error. -/
def Obligations.FormatRendersTheState : Prop :=
  decode 0x00000008 = .ok .format ∧
  ∀ s : State, ∃ t : State, exec .format s = .next t ∧
    t = { s with hex := t.hex, err := .ok, busy := false, done := true } ∧
    ∀ (i : Fin 8) (k : Nat), k < 8 →
      (t.hex[8 * i.val + k]!).toNat =
        if s.h[i].toNat / 2 ^ (28 - 4 * k) % 16 ≤ 9 then 0x30 + s.h[i].toNat / 2 ^ (28 - 4 * k) % 16
        else 0x61 + s.h[i].toNat / 2 ^ (28 - 4 * k) % 16 - 10

/-- 45_digest.md, R311's pseudocode, with `digestWords` of R190: DIGEST hashes the Message that is in the buffer, from IV, whatever came before; W and
WV are the last Block's; every other element stays; CAPACITY otherwise, with nothing changed. That WV is written when a
step-by-step compression is abandoned too is the model's reading of R311 against 70_reset_and_hazards.md R381 (log 17). -/
def Obligations.DigestHashesTheMessage : Prop :=
  decode 0x00000009 = .ok .digest ∧
  ∀ s : State,
    (s.cfg.msgCap < padLen s.msgLen.toNat →
      exec .digest s = .next { s with err := .capacity, busy := false, done := true }) ∧
    (padLen s.msgLen.toNat ≤ s.cfg.msgCap → ∃ t : State, exec .digest s = .next t ∧
      t = { s with
        mem := t.mem
        h := digestWords s.cfg.lenMode s.message
        hex := hexDigest (digestWords s.cfg.lenMode s.message)
        w := schedule (blockOf (paddedMessage s.cfg.lenMode s.message) (padLen s.msgLen.toNat / 64 - 1))
        wv := rounds (schedule (blockOf (paddedMessage s.cfg.lenMode s.message) (padLen s.msgLen.toNat / 64 - 1))) 0 64
          (chain (paddedMessage s.cfg.lenMode s.message) (padLen s.msgLen.toNat / 64 - 1))
        nblk := BitVec.ofNat 32 (padLen s.msgLen.toNat / 64)
        blkIdx := BitVec.ofNat 32 (padLen s.msgLen.toNat / 64)
        roundCtr := 0, padded := true, phase := .empty, err := .ok, busy := false, done := true } ∧
      ∀ k : Nat, t.msgByte k =
        if k < padLen s.msgLen.toNat then (paddedMessage s.cfg.lenMode s.message).getD k 0 else s.msgByte k)

/-! ## Laws between commands -/

/-- 44_compression.md, Laws (R284, which the spec derives): N1 rounds and then N2 rounds are N1 + N2 rounds. -/
def Obligations.RoundsSplit : Prop :=
  ∀ (s : State) (n1 n2 : BitVec 7), s.phase = .rounding → 1 ≤ n1.toNat → 1 ≤ n2.toNat →
    s.roundCtr.toNat + n1.toNat + n2.toNat ≤ 64 →
    ∃ t u : State, exec (.round n1) s = .next t ∧ exec (.round n2) t = .next u ∧
      exec (.round (n1 + n2)) s = .next u

/-- 44_compression.md, Laws (R285, which the spec derives): SCHED, WVLOAD, ROUND 64, FOLD leave the state COMPRESS
leaves. That COMPRESS writes WV in phases SCHEDULED and ROUNDING too is the model's reading (log 17). -/
def Obligations.StepByStepEqualsCompress : Prop :=
  ∀ s : State, s.Inv → s.padded = true → s.blkIdx.toNat < s.nblk.toNat →
    ∃ t : State, exec .compress s = .next t ∧ runCommands [.sched, .wvload, .round 64, .fold] s = some t

/-- 45_digest.md, Laws (R312, which the spec derives): DIGEST leaves the state that INIT, PAD, one COMPRESS per Block and
FORMAT leave. That DIGEST and COMPRESS write WV when a compression is abandoned too is the model's reading (log 17). -/
def Obligations.DigestEqualsTheCommandSequence : Prop :=
  ∀ s : State, padLen s.msgLen.toNat ≤ s.cfg.msgCap → s.cfg.Legal →
    ∃ t : State, exec .digest s = .next t ∧
      runCommands ([.init, .pad] ++ List.replicate (nblkOf s.msgLen.toNat) .compress ++ [.format]) s = some t

/-- 45_digest.md, Laws (R313, which the spec derives): two states of any history with the same Message and length mode
get the same H and HEX from DIGEST, and DIGEST again on the result gives them again. -/
def Obligations.DigestDependsOnTheMessageOnly : Prop :=
  ∀ s s' t t' : State, s.message = s'.message → s.cfg.lenMode = s'.cfg.lenMode →
    padLen s.msgLen.toNat ≤ s.cfg.msgCap → padLen s'.msgLen.toNat ≤ s'.cfg.msgCap →
    exec .digest s = .next t → exec .digest s' = .next t' →
    t.h = t'.h ∧ t.hex = t'.hex ∧
    ∃ u : State, exec .digest t = .next u ∧ u.h = t.h ∧ u.hex = t.hex

/-- 42_padding.md, R242 (which the spec derives): PAD right after PAD leaves the same state. -/
def Obligations.PadIsIdempotent : Prop :=
  ∀ s t : State, Memory.wf s.mem → padLen s.msgLen.toNat ≤ s.cfg.msgCap → exec .pad s = .next t →
    exec .pad t = .next t

/-- 42_padding.md, R241 (which the spec derives): after PAD the buffer's first 64 × NBLK bytes are the Padded Message of the
Message before it, and Block j is its j-th 64 bytes. -/
def Obligations.PaddedBufferIsThePaddedMessage : Prop :=
  ∀ s t : State, padLen s.msgLen.toNat ≤ s.cfg.msgCap → s.cfg.Legal → exec .pad s = .next t →
    64 * t.nblk.toNat = (paddedMessage s.cfg.lenMode s.message).length ∧
    (∀ k : Nat, k < 64 * t.nblk.toNat →
      (paddedMessage s.cfg.lenMode s.message)[k]? = some (t.msgByte k)) ∧
    (∀ j : Nat, j < t.nblk.toNat →
      t.memRead (64 * j) 64 = some (blockOf (paddedMessage s.cfg.lenMode s.message) j))

/-! ## The datapath -/

/-- R181: `padLen(L)` is the least multiple of 64 that is at least L + 9, and the rule's examples. -/
def Obligations.PadLenIsTheLeastFit : Prop :=
  (∀ l : Nat, padLen l % 64 = 0 ∧ l + 9 ≤ padLen l ∧ (∀ p : Nat, p % 64 = 0 → l + 9 ≤ p → padLen l ≤ p) ∧
    nblkOf l = padLen l / 64) ∧
  padLen 0 = 64 ∧ padLen 55 = 64 ∧ padLen 56 = 128 ∧ padLen 119 = 128 ∧ padLen 120 = 192

/-- R182: the padding is 0x80, the least number Z of zero bytes that makes the bit length 448 modulo 512, and the length
field, most significant byte first; its length is between 9 and 72. -/
def Obligations.PaddingHasTheRuleShape : Prop :=
  ∀ (mode : LengthMode) (l : Nat), ∃ z : Nat,
    padBytes mode l = [0x80] ++ List.replicate z 0 ++ be64bytes (lenField mode l) ∧
    z = padLen l - l - 9 ∧ z ≤ 63 ∧
    8 * (l + 1 + z) % 512 = 448 ∧ (∀ y : Nat, 8 * (l + 1 + y) % 512 = 448 → z ≤ y) ∧
    (padBytes mode l).length = padLen l - l ∧ 9 ≤ padLen l - l ∧ padLen l - l ≤ 72 ∧
    (be64bytes (lenField mode l)).length = 8 ∧
    (∀ k : Nat, k < 8 → (be64bytes (lenField mode l))[k]? =
      some (BitVec.ofNat 8 ((lenField mode l).toNat / 2 ^ (56 - 8 * k))))

/-- R180: the length field under both modes, for every length; for every MSG_LEN the two are the same exactly when 8 × L <
2^32, and under FULL64 the value is 8 × L. -/
def Obligations.LengthFieldUnderBothModes : Prop :=
  (∀ l : Nat, (lenField .ref32 l).toNat = 8 * l % 2 ^ 32 ∧ (lenField .full64 l).toNat = 8 * l % 2 ^ 64) ∧
  (∀ l : Word,
    ((lenField .ref32 l.toNat = lenField .full64 l.toNat ↔ 8 * l.toNat < 2 ^ 32) ∧
      (8 * l.toNat < 2 ^ 32 ↔ l.toNat ≤ 0x1FFFFFFF)) ∧
    (lenField .full64 l.toNat).toNat = 8 * l.toNat) ∧
  lenField .ref32 0x20000000 = 0x0000000000000000 ∧ lenField .full64 0x20000000 = 0x0000000100000000

/-- R186, its two lines for every Block, and its last sentence: the first 16 words are the Block's, each later word is the
recurrence. -/
def Obligations.ScheduleFollowsTheRecurrence : Prop :=
  ∀ b : Vector Byte 64,
    (∀ t : Nat, t < 16 → ((schedule b)[t]!).toNat =
      (b[4 * t]!).toNat * 2 ^ 24 + (b[4 * t + 1]!).toNat * 2 ^ 16 + (b[4 * t + 2]!).toNat * 2 ^ 8 +
        (b[4 * t + 3]!).toNat) ∧
    (∀ t : Nat, 16 ≤ t → t < 64 → ((schedule b)[t]!).toNat =
      (((schedule b)[t - 16]!).toNat + (smallSigma0 (schedule b)[t - 15]!).toNat +
        ((schedule b)[t - 7]!).toNat + (smallSigma1 (schedule b)[t - 2]!).toNat) % 2 ^ 32)

/-- R172, R173, R174, R175, bit by bit, on 00_scope.md R10's rotations and shifts: the rotations are right rotations for
every amount 0 < n < 32, the shifts fill with zeros, and each of the four functions is the exclusive or of the bits its rule
takes, with the rules' examples. -/
def Obligations.RotationsMoveEveryBit : Prop :=
  (∀ (x : Word) (n : Nat), 0 < n → n < 32 → ∀ i : Nat, i < 32 →
    (rotr x n).getLsbD i = x.getLsbD ((i + n) % 32)) ∧
  (∀ (x : Word) (n : Nat) (i : Nat), i < 32 → (shr x n).getLsbD i = x.getLsbD (i + n)) ∧
  (∀ (x : Word) (i : Nat), i < 32 →
    (smallSigma0 x).getLsbD i =
      ((x.getLsbD ((i + 7) % 32) ^^ x.getLsbD ((i + 18) % 32)) ^^ (decide (i + 3 < 32) && x.getLsbD (i + 3))) ∧
    (smallSigma1 x).getLsbD i =
      ((x.getLsbD ((i + 17) % 32) ^^ x.getLsbD ((i + 19) % 32)) ^^ (decide (i + 10 < 32) && x.getLsbD (i + 10))) ∧
    (bigSigma0 x).getLsbD i =
      ((x.getLsbD ((i + 2) % 32) ^^ x.getLsbD ((i + 13) % 32)) ^^ x.getLsbD ((i + 22) % 32)) ∧
    (bigSigma1 x).getLsbD i =
      ((x.getLsbD ((i + 6) % 32) ^^ x.getLsbD ((i + 11) % 32)) ^^ x.getLsbD ((i + 25) % 32))) ∧
  smallSigma0 0x00000001 = 0x02004000 ∧ smallSigma1 0x00000001 = 0x0000A000 ∧
  bigSigma0 0x00000001 = 0x40080400 ∧ bigSigma1 0x00000001 = 0x04200080

/-- R178, R179: Ch chooses by each bit of e, Maj takes the majority of three bits, with the rules' examples. -/
def Obligations.ChoiceAndMajorityByBit : Prop :=
  (∀ (e f g : Word) (i : Nat), i < 32 →
    (ch e f g).getLsbD i = if e.getLsbD i then f.getLsbD i else g.getLsbD i) ∧
  (∀ (a b c : Word) (i : Nat), i < 32 →
    (maj a b c).getLsbD i =
      decide (2 ≤ (a.getLsbD i).toNat + (b.getLsbD i).toNat + (c.getLsbD i).toNat)) ∧
  ch 0xF0F0F0F0 0xFF00FF00 0x0F0F0F0F = 0xFF0FFF0F ∧ maj 0xF0F0F0F0 0xFF00FF00 0x0F0F0F0F = 0xFF00FF00

/-- 40_datapath.md R193 (which the spec derives): every character is in [0-9a-f], and distinct States give distinct
strings. -/
def Obligations.HexDigestIsInjective : Prop :=
  (∀ (h : Vector Word 8) (j : Fin 64),
    (0x30 ≤ (hexDigest h)[j].toNat ∧ (hexDigest h)[j].toNat ≤ 0x39) ∨
      (0x61 ≤ (hexDigest h)[j].toNat ∧ (hexDigest h)[j].toNat ≤ 0x66)) ∧
  ∀ h h' : Vector Word 8, hexDigest h = hexDigest h' → h = h'

/-- 40_datapath.md R191 (which the spec derives): the binary Digest's bytes are the bytes of the State words, the most
significant first; a word of the State is `be32` of its four; the hexadecimal Digest is the two digits of each byte. -/
def Obligations.BinaryDigestIsTheStateInBytes : Prop :=
  ∀ h : Vector Word 8,
    (∀ (i : Fin 8) (k : Nat), k < 4 →
      ((binaryDigest h)[4 * i.val + k]!).toNat = h[i].toNat / 2 ^ (24 - 8 * k) % 2 ^ 8) ∧
    (∀ i : Fin 8, be32 (binaryDigest h)[4 * i.val]! (binaryDigest h)[4 * i.val + 1]! (binaryDigest h)[4 * i.val + 2]!
      (binaryDigest h)[4 * i.val + 3]! = h[i]) ∧
    (∀ j : Nat, j < 32 →
      (hexDigest h)[2 * j]! = hexChar (BitVec.ofNat 4 (((binaryDigest h)[j]!).toNat / 16)) ∧
      (hexDigest h)[2 * j + 1]! = hexChar (BitVec.ofNat 4 (((binaryDigest h)[j]!).toNat % 16)))

/-- 40_datapath.md, R192's second bullet (which the spec derives): under the two length modes the digest of every Message of
at most 0x1FFFFFFF bytes is the same. -/
def Obligations.DigestIsTheSameInBothLengthModes : Prop :=
  ∀ m : List Byte, m.length ≤ 0x1FFFFFFF →
    paddedMessage .ref32 m = paddedMessage .full64 m ∧ digestWords .ref32 m = digestWords .full64 m

/-! ## Bus transactions -/

/-- R108 with the tables of R67 and R106: exactly these transactions, by their offset from BASE, are no bus errors; a bus
error answers with an error, data 0 on a read, whatever BUSY is, and changes nothing else. -/
def Obligations.BusErrorsChangeNothing : Prop :=
  ∀ s : State,
    (∀ (dir : Dir) (off : Nat) (size : Size), (accessTarget s.cfg dir (s.cfg.base + off) size).isSome = true ↔
      (size = .word ∧ off % 4 = 0 ∧
        (off < 0x010 ∨ (0x040 ≤ off ∧ off < 0x060) ∨ (0x1000 ≤ off ∧ off < 0x1000 + s.cfg.msgCap) ∨
          (dir = .read ∧
            ((0x010 ≤ off ∧ off < 0x024) ∨ (0x060 ≤ off ∧ off < 0x080) ∨ (0x100 ≤ off ∧ off < 0x240))))) ∨
      (size = .byte ∧
        ((0x1000 ≤ off ∧ off < 0x1000 + s.cfg.msgCap) ∨ (dir = .read ∧ 0x200 ≤ off ∧ off < 0x240)))) ∧
    (∀ (addr : Nat) (size : Size), accessTarget s.cfg .read addr size = none →
      s.serve (.read addr size) =
        { s with replies := { busy := s.busy, response := .readError 0 } :: s.replies }) ∧
    (∀ (addr : Nat) (size : Size) (v : Word), accessTarget s.cfg .write addr size = none →
      s.serve (.write addr size v) =
        { s with replies := { busy := s.busy, response := .writeError } :: s.replies })

/-- R109, one clause per line of its table, at the offsets of R67: with BUSY = 0 every read returns the value and changes
nothing; with BUSY = 1 the reads of CTRL, STATUS, IRQ_EN, CAPACITY and ID still do. -/
def Obligations.ReadsReturnTheRegisters : Prop :=
  ∀ s : State, s.cfg.Legal →
    (∀ (off : Nat) (v : Word),
      (off, v) ∈ [(0x000, 0), (0x004, s.statusWord), (0x008, if s.doneIe then 1 else 0),
        (0x01C, BitVec.ofNat 32 s.cfg.msgCap), (0x020, 0x53484132)] →
      s.serve (.read (s.cfg.base + off) .word) =
        { s with replies := { busy := s.busy, response := .readOk v } :: s.replies }) ∧
    s.statusWord.toNat =
      s.busy.toNat + s.done.toNat * 2 +
        (match s.err with | .ok => 0 | .illegal => 1 | .capacity => 2 | .sequence => 3) * 2 ^ 2 +
        s.ovr.toNat * 2 ^ 5 + s.padded.toNat * 2 ^ 6 +
        (match s.phase with | .empty => 0 | .scheduled => 1 | .rounding => 2) * 2 ^ 7 +
        (match s.cfg.lenMode with | .ref32 => 0 | .full64 => 1) * 2 ^ 9 ∧
    (BitVec.ofNat 32 s.cfg.msgCap).toNat = s.cfg.msgCap ∧
    (s.busy = false →
      (∀ (off : Nat) (v : Word),
        ((off, v) ∈ [(0x00C, s.msgLen), (0x010, s.nblk), (0x014, s.blkIdx), (0x018, s.roundCtr)] ∨
          (∃ i : Fin 8, off = 0x040 + 4 * i.val ∧ v = s.h[i]) ∨
          (∃ i : Fin 8, off = 0x060 + 4 * i.val ∧ v = s.wv[i]) ∨
          (∃ t : Fin 64, off = 0x100 + 4 * t.val ∧ v = s.w[t]) ∨
          (∃ k : Nat, k < 64 ∧ k % 4 = 0 ∧ off = 0x200 + k ∧
            v.toNat = (s.hex[k]!).toNat * 2 ^ 24 + (s.hex[k + 1]!).toNat * 2 ^ 16 + (s.hex[k + 2]!).toNat * 2 ^ 8 +
              (s.hex[k + 3]!).toNat) ∨
          (∃ k : Nat, k < s.cfg.msgCap ∧ k % 4 = 0 ∧ off = 0x1000 + k ∧
            v.toNat = (s.msgByte k).toNat * 2 ^ 24 + (s.msgByte (k + 1)).toNat * 2 ^ 16 +
              (s.msgByte (k + 2)).toNat * 2 ^ 8 + (s.msgByte (k + 3)).toNat)) →
        s.serve (.read (s.cfg.base + off) .word) =
          { s with replies := { busy := false, response := .readOk v } :: s.replies }) ∧
      (∀ (off : Nat) (v : Word),
        ((∃ k : Nat, k < 64 ∧ off = 0x200 + k ∧ v.toNat = (s.hex[k]!).toNat) ∨
          (∃ k : Nat, k < s.cfg.msgCap ∧ off = 0x1000 + k ∧ v.toNat = (s.msgByte k).toNat)) →
        s.serve (.read (s.cfg.base + off) .byte) =
          { s with replies := { busy := false, response := .readOk v } :: s.replies }))

/-- R104 and R73's second sentence: an accepted word write to MSG stores its four bytes big-endian, a byte write its low
byte, and every other byte of MSG, every register and every flag stays. -/
def Obligations.MsgWritesAreBigEndian : Prop :=
  ∀ (s : State) (k : Nat) (v : Word), s.busy = false → s.cfg.Legal → k < s.cfg.msgCap →
    (k % 4 = 0 → ∃ t : State, s.serve (.write (s.cfg.base + 0x1000 + k) .word v) = t ∧
      t = { s with mem := t.mem, replies := { busy := false, response := .writeOk } :: s.replies } ∧
      (∀ j : Nat, t.msgByte j =
        if j = k then BitVec.ofNat 8 (v.toNat / 2 ^ 24) else if j = k + 1 then BitVec.ofNat 8 (v.toNat / 2 ^ 16)
        else if j = k + 2 then BitVec.ofNat 8 (v.toNat / 2 ^ 8) else if j = k + 3 then BitVec.ofNat 8 v.toNat
        else s.msgByte j) ∧
      be32 (t.msgByte k) (t.msgByte (k + 1)) (t.msgByte (k + 2)) (t.msgByte (k + 3)) = v) ∧
    (∃ t : State, s.serve (.write (s.cfg.base + 0x1000 + k) .byte v) = t ∧
      t = { s with mem := t.mem, replies := { busy := false, response := .writeOk } :: s.replies } ∧
      ∀ j : Nat, t.msgByte j = if j = k then BitVec.ofNat 8 v.toNat else s.msgByte j)

/-- R70: a word write to H[i] while BUSY = 0 sets that word and changes nothing else; while BUSY = 1 it is dropped. -/
def Obligations.HWriteSetsOneWord : Prop :=
  ∀ (s : State) (i : Fin 8) (v : Word),
    (s.busy = false → ∃ t : State, s.serve (.write (s.cfg.base + 0x040 + 4 * i.val) .word v) = t ∧
      t = { s with h := t.h, replies := { busy := false, response := .writeOk } :: s.replies } ∧
      ∀ j : Fin 8, t.h[j] = if j = i then v else s.h[j]) ∧
    (s.busy = true → s.serve (.write (s.cfg.base + 0x040 + 4 * i.val) .word v) =
      { s with ovr := true, replies := { busy := true, response := .writeOk } :: s.replies })

/-- R71: a word write to MSG_LEN while BUSY = 0 sets it and restarts the sequencer, unpadded, in one step; it is accepted
for every value. -/
def Obligations.MsgLenWriteRestarts : Prop :=
  ∀ (s : State) (v : Word), s.busy = false →
    s.serve (.write (s.cfg.base + 0x00C) .word v) =
      { s with
        msgLen := v, padded := false, nblk := 0, blkIdx := 0, phase := .empty, roundCtr := 0,
        replies := { busy := false, response := .writeOk } :: s.replies }

/-- R72: a word write to STATUS clears DONE and OVR by bits 1 and 5 and changes nothing else, whatever BUSY is. -/
def Obligations.StatusWriteClearsByOnes : Prop :=
  ∀ (s : State) (v : Word), ∃ t : State, s.serve (.write (s.cfg.base + 0x004) .word v) = t ∧
    t = { s with
      done := t.done, ovr := t.ovr, replies := { busy := s.busy, response := .writeOk } :: s.replies } ∧
    t.done = (if v.toNat / 2 % 2 = 1 then false else s.done) ∧
    t.ovr = (if v.toNat / 2 ^ 5 % 2 = 1 then false else s.ovr)

/-- 10_state.md R62 and R73's first sentence: a word write to IRQ_EN sets DONE_IE to bit 0 and changes nothing else,
whatever BUSY is. -/
def Obligations.IrqEnWriteSetsDoneIe : Prop :=
  ∀ (s : State) (v : Word), s.serve (.write (s.cfg.base + 0x008) .word v) =
    { s with
      doneIe := decide (v.toNat % 2 = 1), replies := { busy := s.busy, response := .writeOk } :: s.replies }

/-- R337: while BUSY = 1 an accepted write to CTRL, MSG_LEN, H or MSG is dropped, sets OVR and changes nothing else; only a
write-1-to-clear of bit 5, SRESET or hardware reset clears OVR. -/
def Obligations.OverrunDropsTheWrite : Prop :=
  (∀ (s : State) (addr : Nat) (size : Size) (v : Word), s.busy = true →
    (accessTarget s.cfg .write addr size).isSome = true →
    (addr - s.cfg.base < 0x004 ∨ (0x00C ≤ addr - s.cfg.base ∧ addr - s.cfg.base < 0x010) ∨
      (0x040 ≤ addr - s.cfg.base ∧ addr - s.cfg.base < 0x060) ∨ 0x1000 ≤ addr - s.cfg.base) →
    s.serve (.write addr size v) =
      { s with ovr := true, replies := { busy := true, response := .writeOk } :: s.replies }) ∧
  (∀ s t : State, s.ovr = true → step s = .next t → t.ovr = false →
    s.ResetsNext ∨
    (∃ (rest : List Turn) (v : Word), s.turns = .host (.write (s.cfg.base + 0x004) .word v) :: rest ∧
      v.getLsbD 5 = true) ∨
    (s.CompletesNext ∧ decode s.pending = .ok .sreset))

/-- 20_memory.md R111, its last bullet, on the model's free value (log 6), and the last sentence of 10_state.md R50: a read
of a volatile target while BUSY = 1 returns a draw, a fresh one each time, and changes no element of R40; of ROUNDCTR bits
6:0 are drawn, and its bits 31:7 read 0 whatever BUSY is. The value of the draw is open: the statement holds for every one.
That R50 and 93 item 11 decide of bits 31:7, and not R111, is the model's reading (log 16). -/
def Obligations.BusyVolatileReadsDraw : Prop :=
  (∀ (s : State) (addr : Nat) (size : Size) (r : Region), s.busy = true →
    accessTarget s.cfg .read addr size = some r →
    r ∉ [Region.ctrl, .status, .irqEn, .capacity, .id] →
    ∃ t : State, s.serve (.read addr size) = t ∧ t.arch = s.arch ∧ t.draws = s.draws + 1 ∧ t.turns = s.turns ∧
      ∃ v : Word, t.replies = { busy := true, response := .readOk v } :: s.replies ∧
        (size = .word → r ≠ .roundCtr → v = Config.busyRead s.draws) ∧
        (size = .word → r = .roundCtr → v.toNat = (Config.busyRead s.draws).toNat % 2 ^ 7) ∧
        (size = .byte → v.toNat = (Config.busyRead s.draws).toNat % 2 ^ 8)) ∧
  (∀ s : State, s.Inv → ∃ v : Word,
    (s.serve (.read (s.cfg.base + 0x018) .word)).replies = { busy := s.busy, response := .readOk v } :: s.replies ∧
      v.toNat / 2 ^ 7 = 0 ∧ (s.busy = false → v = s.roundCtr))

/-- 00_scope.md R8 and D6: the block sees offsets only; moving BASE moves the window and changes nothing else. Two machines
that differ in BASE alone have the same targets at the same offsets, serve the same transaction, execute and complete the
same command, and take any coming turns, given by offsets, to states that again differ in BASE alone; an address below BASE
has no target (log 2). -/
def Obligations.BaseOnlyMovesTheWindow : Prop :=
  (∀ (c : Config) (b off : Nat) (dir : Dir) (size : Size),
    accessTarget { c with base := b } dir (b + off) size = accessTarget { c with base := 0 } dir off size) ∧
  (∀ (c : Config) (addr : Nat) (dir : Dir) (size : Size), addr < c.base → accessTarget c dir addr size = none) ∧
  (∀ (s : State) (b b' : Nat) (x : BusTxn),
    (s.rebase b').serve (x.atBase b') = ((s.rebase b).serve (x.atBase b)).rebase b') ∧
  (∀ (s : State) (b : Nat) (i : Instr), exec i (s.rebase b) = mapNext (·.rebase b) (exec i s)) ∧
  (∀ (s : State) (b : Nat), (s.rebase b).completion = mapNext (·.rebase b) s.completion) ∧
  (∀ (s : State) (b b' : Nat) (ts : List Turn),
    step (s.placedAt b' ts) = mapNext (·.placedAt b' ts.tail) (step (s.placedAt b ts))) ∧
  (∀ (n : Nat) (s : State) (b b' : Nat) (ts : List Turn),
    runSteps n (s.placedAt b' ts) = mapNext (·.placedAt b' (ts.drop n)) (runSteps n (s.placedAt b ts)))

/-- 20_memory.md, R112 (the idempotence it derives): repeating a write to anything but CTRL leaves the same architectural
state. -/
def Obligations.RepeatedWritesAreIdempotent : Prop :=
  ∀ (s : State) (addr : Nat) (size : Size) (v : Word), Memory.wf s.mem →
    accessTarget s.cfg .write addr size ≠ some .ctrl →
    ((s.serve (.write addr size v)).serve (.write addr size v)).arch = (s.serve (.write addr size v)).arch

/-! ## Constant tables -/

/-- 40_datapath.md, section 2 (R176 and R177; the spec marks the values as general knowledge): row `r` of the table of the
Round Constants holds K[8r] .. K[8r+7]; each is the first 32 bits of the fractional part of the cube root of its prime, and
each word of the initial State those of the square root: with `a` the root's whole part, a·2^32 + K is the whole part of the
root times 2^32. -/
def Obligations.ConstantTablesAreTheRootsOfThePrimes : Prop :=
  (∀ (r : Nat) (ks : List Word), (r, ks) ∈
    [(0, [0x428a2f98, 0x71374491, 0xb5c0fbcf, 0xe9b5dba5, 0x3956c25b, 0x59f111f1, 0x923f82a4, 0xab1c5ed5]),
     (1, [0xd807aa98, 0x12835b01, 0x243185be, 0x550c7dc3, 0x72be5d74, 0x80deb1fe, 0x9bdc06a7, 0xc19bf174]),
     (2, [0xe49b69c1, 0xefbe4786, 0x0fc19dc6, 0x240ca1cc, 0x2de92c6f, 0x4a7484aa, 0x5cb0a9dc, 0x76f988da]),
     (3, [0x983e5152, 0xa831c66d, 0xb00327c8, 0xbf597fc7, 0xc6e00bf3, 0xd5a79147, 0x06ca6351, 0x14292967]),
     (4, [0x27b70a85, 0x2e1b2138, 0x4d2c6dfc, 0x53380d13, 0x650a7354, 0x766a0abb, 0x81c2c92e, 0x92722c85]),
     (5, [0xa2bfe8a1, 0xa81a664b, 0xc24b8b70, 0xc76c51a3, 0xd192e819, 0xd6990624, 0xf40e3585, 0x106aa070]),
     (6, [0x19a4c116, 0x1e376c08, 0x2748774c, 0x34b0bcb5, 0x391c0cb3, 0x4ed8aa4a, 0x5b9cca4f, 0x682e6ff3]),
     (7, [0x748f82ee, 0x78a5636f, 0x84c87814, 0x8cc70208, 0x90befffa, 0xa4506ceb, 0xbef9a3f7, 0xc67178f2])] →
    ∀ k : Nat, k < 8 → ks[k]? = some (roundConstant (8 * r + k))) ∧
  (∀ t : Nat, t < 64 → ∃ a : Nat,
    (a * 2 ^ 32 + (roundConstant t).toNat) ^ 3 ≤ Nat.nth Nat.Prime t * 2 ^ 96 ∧
      Nat.nth Nat.Prime t * 2 ^ 96 < (a * 2 ^ 32 + (roundConstant t).toNat + 1) ^ 3) ∧
  (∀ i : Fin 8, ∃ a : Nat,
    (a * 2 ^ 32 + iv[i].toNat) ^ 2 ≤ Nat.nth Nat.Prime i * 2 ^ 64 ∧
      Nat.nth Nat.Prime i * 2 ^ 64 < (a * 2 ^ 32 + iv[i].toNat + 1) ^ 2)
end

