-- ==== Sys2Proof/Laws/Datapath.lean ====
section
/-! SUPPORT. One spec lemma for each long function of the datapath (40_datapath.md): lengths, the recurrence, the splitting
of rounds, the bytes of the padding. -/

namespace Sys2Proof.Machine

/-! ## Schedule -/

/-- The words already there are not touched by the ones that follow. -/
theorem scheduleWords_prefix (b : Vector Byte 64) (n k t : Nat) (h : t < 16 + n) :
    (scheduleWords b (n + k)).getD t 0 = (scheduleWords b n).getD t 0 := by
  induction k with
  | zero => rfl
  | succ k ih =>
    rw [← Nat.add_assoc, scheduleWords, ← ih]
    have hl := scheduleWords_length b (n + k)
    simp only [List.getD_eq_getElem?_getD]
    rw [List.getElem?_append_left (by omega)]

/-- Word `t` of a schedule is word `t` of the list it is made from. -/
theorem schedule_getElem! (b : Vector Byte 64) (t : Nat) (h : t < 64) :
    (schedule b)[t]! = (scheduleWords b 48).getD t 0 := by
  have hl := scheduleWords_length b 48
  rw [getElem!_pos (schedule b) t h, List.getD_eq_getElem _ _ (by omega)]
  unfold schedule
  simp

/-- R186, first line. -/
theorem schedule_low (b : Vector Byte 64) (t : Nat) (h : t < 16) : (schedule b)[t]! = blockWord b t := by
  rw [schedule_getElem! b t (by omega), show 48 = 0 + 48 from rfl, scheduleWords_prefix b 0 48 t h]
  simp [scheduleWords, List.getD_eq_getElem?_getD, List.getElem?_map, List.getElem?_range h]

/-- R186, second line. -/
theorem schedule_high (b : Vector Byte 64) (t : Nat) (h1 : 16 ≤ t) (h2 : t < 64) :
    (schedule b)[t]! = (schedule b)[t - 16]! + smallSigma0 (schedule b)[t - 15]! + (schedule b)[t - 7]! +
      smallSigma1 (schedule b)[t - 2]! := by
  obtain ⟨n, rfl⟩ : ∃ n, t = 16 + n := ⟨t - 16, by omega⟩
  have low : ∀ u, u < 16 + n → (scheduleWords b 48).getD u 0 = (scheduleWords b n).getD u 0 := fun u hu => by
    rw [show 48 = n + (48 - n) by omega]
    exact scheduleWords_prefix b n _ u hu
  have top : (scheduleWords b 48).getD (16 + n) 0 = nextScheduleWord (scheduleWords b n) := by
    rw [show 48 = (n + 1) + (47 - n) by omega, scheduleWords_prefix b (n + 1) _ _ (by omega), scheduleWords]
    have hl := scheduleWords_length b n
    simp [List.getD_eq_getElem?_getD, ← hl]
  rw [schedule_getElem! b _ h2, schedule_getElem! b _ (by omega), schedule_getElem! b _ (by omega),
    schedule_getElem! b _ (by omega), schedule_getElem! b _ (by omega), top,
    low _ (by omega), low _ (by omega), low _ (by omega), low _ (by omega)]
  unfold nextScheduleWord
  rw [scheduleWords_length]

/-! ## Rounds -/

@[simp] theorem rounds_zero (w : Vector Word 64) (t : Nat) (v : Vector Word 8) : rounds w t 0 v = v := by
  unfold rounds
  rfl

theorem rounds_succ (w : Vector Word 64) (t n : Nat) (v : Vector Word 8) :
    rounds w t (n + 1) v = rounds w (t + 1) n (roundStep v t w[t]!) := by
  conv_lhs => unfold rounds

/-- Rounds split (R284). -/
theorem rounds_add (w : Vector Word 64) (t m n : Nat) (v : Vector Word 8) :
    rounds w t (m + n) v = rounds w (t + m) n (rounds w t m v) := by
  induction m generalizing t v with
  | zero => simp
  | succ m ih =>
    rw [show m + 1 + n = (m + n) + 1 by omega, rounds_succ, rounds_succ, ih, show t + 1 + m = t + (m + 1) by omega]

/-- The last of `n + 1` rounds. -/
theorem rounds_last (w : Vector Word 64) (t n : Nat) (v : Vector Word 8) :
    rounds w t (n + 1) v = roundStep (rounds w t n v) (t + n) w[t + n]! := by
  rw [rounds_add, rounds_succ, rounds_zero]

/-! ## Fold and hexadecimal -/

theorem foldWords_getElem (h v : Vector Word 8) (i : Fin 8) : (foldWords h v)[i] = h[i] + v[i] := by
  unfold foldWords
  simp

theorem hexDigest_getElem (h : Vector Word 8) (j : Fin 64) :
    (hexDigest h)[j] = hexChar (nibbleOfWord h[j.val / 8] (j.val % 8)) := by
  unfold hexDigest
  simp

theorem compressBlock_eq (h : Vector Word 8) (b : Vector Byte 64) :
    compressBlock h b = foldWords h (rounds (schedule b) 0 64 h) := by
  unfold compressBlock
  rfl

theorem hexChar_toNat (n : BitVec 4) : (hexChar n).toNat = if n.toNat ≤ 9 then 0x30 + n.toNat else 0x57 + n.toNat := by
  revert n
  decide

theorem nibbleOfWord_toNat (v : Word) (k : Nat) : (nibbleOfWord v k).toNat = v.toNat / 2 ^ (28 - 4 * k) % 16 := by
  simp [nibbleOfWord, BitVec.extractLsb'_toNat, Nat.shiftRight_eq_div_pow]

/-! ## Padding -/

theorem be64bytes_length (v : BitVec 64) : (be64bytes v).length = 8 := by simp [be64bytes]

theorem be64bytes_getElem? (v : BitVec 64) (k : Nat) (h : k < 8) :
    (be64bytes v)[k]? = some (BitVec.ofNat 8 (v.toNat / 2 ^ (56 - 8 * k))) := by
  simp only [be64bytes, List.getElem?_map, List.getElem?_range h, Option.map_some, Option.some.injEq]
  apply BitVec.eq_of_toNat_eq
  simp [BitVec.extractLsb'_toNat, Nat.shiftRight_eq_div_pow]

theorem padLen_ge (l : Nat) : l + 9 ≤ padLen l := by
  unfold padLen
  omega

theorem padLen_le (l : Nat) : padLen l ≤ l + 72 := by
  unfold padLen
  omega

theorem padLen_eq (l : Nat) : padLen l = 64 * nblkOf l := by
  unfold nblkOf padLen
  omega

theorem nblkOf_pos (l : Nat) : 1 ≤ nblkOf l := by
  unfold nblkOf padLen
  omega

theorem padBytes_length (mode : LengthMode) (l : Nat) : (padBytes mode l).length = padLen l - l := by
  have := padLen_ge l
  simp [padBytes, be64bytes_length]
  omega

/-- Every byte of the padding (R182). -/
theorem padBytes_getD (mode : LengthMode) (l k : Nat) (h : k < padLen l - l) :
    (padBytes mode l).getD k 0 =
      if k = 0 then 0x80
      else if k < padLen l - l - 8 then 0
      else BitVec.ofNat 8 ((lenField mode l).toNat / 2 ^ (8 * (padLen l - l - 1 - k))) := by
  have hp := padLen_ge l
  cases k with
  | zero => simp [padBytes]
  | succ k =>
    simp only [padBytes, List.getD_eq_getElem?_getD, List.getElem?_cons_succ, Nat.succ_ne_zero, if_false]
    by_cases hk : k + 1 < padLen l - l - 8
    · rw [List.getElem?_append_left (by simp; omega), if_pos hk]
      simp only [List.getElem?_replicate]
      split <;> rfl
    · rw [List.getElem?_append_right (by simp; omega), if_neg hk, List.length_replicate,
        be64bytes_getElem? _ _ (by omega)]
      simp only [Option.getD_some]
      congr 3
      omega

theorem lenField_toNat (mode : LengthMode) (l : Nat) (h : l < 2 ^ 32) :
    (lenField mode l).toNat = match mode with | .ref32 => 8 * l % 2 ^ 32 | .full64 => 8 * l := by
  cases mode <;> simp only [lenField, BitVec.toNat_ofNat] <;> omega

theorem paddedMessage_length (mode : LengthMode) (m : List Byte) :
    (paddedMessage mode m).length = padLen m.length := by
  have := padLen_ge m.length
  simp [paddedMessage, padBytes_length]
  omega

theorem blockOf_getElem (p : List Byte) (j : Nat) (i : Fin 64) : (blockOf p j)[i] = p.getD (64 * j + i.val) 0 := by
  simp [blockOf]

/-! ## Bytes of words -/

theorem be32_toNat (a b c d : Byte) :
    (be32 a b c d).toNat = a.toNat * 2 ^ 24 + b.toNat * 2 ^ 16 + c.toNat * 2 ^ 8 + d.toNat := by
  have ha := a.isLt
  have hb := b.isLt
  have hc := c.isLt
  have hd := d.isLt
  simp only [be32, BitVec.toNat_append]
  rw [← Nat.shiftLeft_add_eq_or_of_lt hb, ← Nat.shiftLeft_add_eq_or_of_lt hc, ← Nat.shiftLeft_add_eq_or_of_lt hd]
  simp only [Nat.shiftLeft_eq]
  omega

theorem byteOfWord_toNat (v : Word) (k : Nat) : (byteOfWord v k).toNat = v.toNat / 2 ^ (24 - 8 * k) % 256 := by
  simp [byteOfWord, BitVec.extractLsb'_toNat, Nat.shiftRight_eq_div_pow]

/-- A word is its four bytes, the most significant first (R104). -/
theorem be32_bytes (v : Word) : be32 (byteOfWord v 0) (byteOfWord v 1) (byteOfWord v 2) (byteOfWord v 3) = v := by
  apply BitVec.eq_of_toNat_eq
  have := v.isLt
  simp only [be32_toNat, byteOfWord_toNat]
  omega

end Sys2Proof.Machine
end

