-- ==== Sys2Proof/Laws/State.lean ====
section
/-! SUPPORT. What each named update does to each field, by `rfl`: later proofs unfold no record update. -/

namespace Sys2Proof.Machine

variable (s : State)

/-! ## `State.issue` (R220) -/

@[simp] theorem State.issue_cfg (v : Word) : (s.issue v).cfg = s.cfg := rfl
@[simp] theorem State.issue_h (v : Word) : (s.issue v).h = s.h := rfl
@[simp] theorem State.issue_wv (v : Word) : (s.issue v).wv = s.wv := rfl
@[simp] theorem State.issue_w (v : Word) : (s.issue v).w = s.w := rfl
@[simp] theorem State.issue_mem (v : Word) : (s.issue v).mem = s.mem := rfl
@[simp] theorem State.issue_hex (v : Word) : (s.issue v).hex = s.hex := rfl
@[simp] theorem State.issue_msgLen (v : Word) : (s.issue v).msgLen = s.msgLen := rfl
@[simp] theorem State.issue_nblk (v : Word) : (s.issue v).nblk = s.nblk := rfl
@[simp] theorem State.issue_blkIdx (v : Word) : (s.issue v).blkIdx = s.blkIdx := rfl
@[simp] theorem State.issue_roundCtr (v : Word) : (s.issue v).roundCtr = s.roundCtr := rfl
@[simp] theorem State.issue_busy (v : Word) : (s.issue v).busy = true := rfl
@[simp] theorem State.issue_done (v : Word) : (s.issue v).done = false := rfl
@[simp] theorem State.issue_err (v : Word) : (s.issue v).err = s.err := rfl
@[simp] theorem State.issue_ovr (v : Word) : (s.issue v).ovr = s.ovr := rfl
@[simp] theorem State.issue_padded (v : Word) : (s.issue v).padded = s.padded := rfl
@[simp] theorem State.issue_phase (v : Word) : (s.issue v).phase = s.phase := rfl
@[simp] theorem State.issue_doneIe (v : Word) : (s.issue v).doneIe = s.doneIe := rfl
@[simp] theorem State.issue_pending (v : Word) : (s.issue v).pending = v := rfl
@[simp] theorem State.issue_msgEpoch (v : Word) : (s.issue v).msgEpoch = s.msgEpoch := rfl
@[simp] theorem State.issue_draws (v : Word) : (s.issue v).draws = s.draws := rfl
@[simp] theorem State.issue_turns (v : Word) : (s.issue v).turns = s.turns := rfl
@[simp] theorem State.issue_replies (v : Word) : (s.issue v).replies = s.replies := rfl
@[simp] theorem State.issue_msgByte (v : Word) (k : Nat) : (s.issue v).msgByte k = s.msgByte k := rfl

/-! ## `State.complete` (R222) -/

@[simp] theorem State.complete_cfg (c : ResultCode) : (s.complete c).cfg = s.cfg := rfl
@[simp] theorem State.complete_h (c : ResultCode) : (s.complete c).h = s.h := rfl
@[simp] theorem State.complete_wv (c : ResultCode) : (s.complete c).wv = s.wv := rfl
@[simp] theorem State.complete_w (c : ResultCode) : (s.complete c).w = s.w := rfl
@[simp] theorem State.complete_mem (c : ResultCode) : (s.complete c).mem = s.mem := rfl
@[simp] theorem State.complete_hex (c : ResultCode) : (s.complete c).hex = s.hex := rfl
@[simp] theorem State.complete_msgLen (c : ResultCode) : (s.complete c).msgLen = s.msgLen := rfl
@[simp] theorem State.complete_nblk (c : ResultCode) : (s.complete c).nblk = s.nblk := rfl
@[simp] theorem State.complete_blkIdx (c : ResultCode) : (s.complete c).blkIdx = s.blkIdx := rfl
@[simp] theorem State.complete_roundCtr (c : ResultCode) : (s.complete c).roundCtr = s.roundCtr := rfl
@[simp] theorem State.complete_busy (c : ResultCode) : (s.complete c).busy = false := rfl
@[simp] theorem State.complete_done (c : ResultCode) : (s.complete c).done = true := rfl
@[simp] theorem State.complete_err (c : ResultCode) : (s.complete c).err = c := rfl
@[simp] theorem State.complete_ovr (c : ResultCode) : (s.complete c).ovr = s.ovr := rfl
@[simp] theorem State.complete_padded (c : ResultCode) : (s.complete c).padded = s.padded := rfl
@[simp] theorem State.complete_phase (c : ResultCode) : (s.complete c).phase = s.phase := rfl
@[simp] theorem State.complete_doneIe (c : ResultCode) : (s.complete c).doneIe = s.doneIe := rfl
@[simp] theorem State.complete_pending (c : ResultCode) : (s.complete c).pending = s.pending := rfl
@[simp] theorem State.complete_msgEpoch (c : ResultCode) : (s.complete c).msgEpoch = s.msgEpoch := rfl
@[simp] theorem State.complete_draws (c : ResultCode) : (s.complete c).draws = s.draws := rfl
@[simp] theorem State.complete_turns (c : ResultCode) : (s.complete c).turns = s.turns := rfl
@[simp] theorem State.complete_replies (c : ResultCode) : (s.complete c).replies = s.replies := rfl
@[simp] theorem State.complete_msgByte (c : ResultCode) (k : Nat) : (s.complete c).msgByte k = s.msgByte k := rfl

/-! ## `State.softReset` (R228) -/

@[simp] theorem State.softReset_cfg : s.softReset.cfg = s.cfg := rfl
@[simp] theorem State.softReset_h : s.softReset.h = iv := rfl
@[simp] theorem State.softReset_wv : s.softReset.wv = Vector.replicate 8 0 := rfl
@[simp] theorem State.softReset_w : s.softReset.w = Vector.replicate 64 0 := rfl
@[simp] theorem State.softReset_mem : s.softReset.mem = s.mem := rfl
@[simp] theorem State.softReset_hex : s.softReset.hex = Vector.replicate 64 0 := rfl
@[simp] theorem State.softReset_msgLen : s.softReset.msgLen = 0 := rfl
@[simp] theorem State.softReset_nblk : s.softReset.nblk = 0 := rfl
@[simp] theorem State.softReset_blkIdx : s.softReset.blkIdx = 0 := rfl
@[simp] theorem State.softReset_roundCtr : s.softReset.roundCtr = 0 := rfl
@[simp] theorem State.softReset_busy : s.softReset.busy = false := rfl
@[simp] theorem State.softReset_done : s.softReset.done = false := rfl
@[simp] theorem State.softReset_err : s.softReset.err = .ok := rfl
@[simp] theorem State.softReset_ovr : s.softReset.ovr = false := rfl
@[simp] theorem State.softReset_padded : s.softReset.padded = false := rfl
@[simp] theorem State.softReset_phase : s.softReset.phase = .empty := rfl
@[simp] theorem State.softReset_doneIe : s.softReset.doneIe = false := rfl
@[simp] theorem State.softReset_pending : s.softReset.pending = 0 := rfl
@[simp] theorem State.softReset_msgEpoch : s.softReset.msgEpoch = s.msgEpoch := rfl
@[simp] theorem State.softReset_draws : s.softReset.draws = s.draws := rfl
@[simp] theorem State.softReset_turns : s.softReset.turns = s.turns := rfl
@[simp] theorem State.softReset_replies : s.softReset.replies = s.replies := rfl
@[simp] theorem State.softReset_msgByte (k : Nat) : s.softReset.msgByte k = s.msgByte k := rfl

/-! ## `State.hardReset` (R370) -/

@[simp] theorem State.hardReset_cfg : s.hardReset.cfg = s.cfg := rfl
@[simp] theorem State.hardReset_h : s.hardReset.h = iv := rfl
@[simp] theorem State.hardReset_wv : s.hardReset.wv = Vector.replicate 8 0 := rfl
@[simp] theorem State.hardReset_w : s.hardReset.w = Vector.replicate 64 0 := rfl
@[simp] theorem State.hardReset_mem : s.hardReset.mem = [] := rfl
@[simp] theorem State.hardReset_hex : s.hardReset.hex = Vector.replicate 64 0 := rfl
@[simp] theorem State.hardReset_msgLen : s.hardReset.msgLen = 0 := rfl
@[simp] theorem State.hardReset_nblk : s.hardReset.nblk = 0 := rfl
@[simp] theorem State.hardReset_blkIdx : s.hardReset.blkIdx = 0 := rfl
@[simp] theorem State.hardReset_roundCtr : s.hardReset.roundCtr = 0 := rfl
@[simp] theorem State.hardReset_busy : s.hardReset.busy = false := rfl
@[simp] theorem State.hardReset_done : s.hardReset.done = false := rfl
@[simp] theorem State.hardReset_err : s.hardReset.err = .ok := rfl
@[simp] theorem State.hardReset_ovr : s.hardReset.ovr = false := rfl
@[simp] theorem State.hardReset_padded : s.hardReset.padded = false := rfl
@[simp] theorem State.hardReset_phase : s.hardReset.phase = .empty := rfl
@[simp] theorem State.hardReset_doneIe : s.hardReset.doneIe = false := rfl
@[simp] theorem State.hardReset_pending : s.hardReset.pending = 0 := rfl
@[simp] theorem State.hardReset_msgEpoch : s.hardReset.msgEpoch = s.msgEpoch + 1 := rfl
@[simp] theorem State.hardReset_draws : s.hardReset.draws = s.draws := rfl
@[simp] theorem State.hardReset_turns : s.hardReset.turns = s.turns := rfl
@[simp] theorem State.hardReset_replies : s.hardReset.replies = s.replies := rfl

/-! ## `State.writeStatus` (R72) -/

@[simp] theorem State.writeStatus_cfg (v : Word) : (s.writeStatus v).cfg = s.cfg := rfl
@[simp] theorem State.writeStatus_h (v : Word) : (s.writeStatus v).h = s.h := rfl
@[simp] theorem State.writeStatus_wv (v : Word) : (s.writeStatus v).wv = s.wv := rfl
@[simp] theorem State.writeStatus_w (v : Word) : (s.writeStatus v).w = s.w := rfl
@[simp] theorem State.writeStatus_mem (v : Word) : (s.writeStatus v).mem = s.mem := rfl
@[simp] theorem State.writeStatus_hex (v : Word) : (s.writeStatus v).hex = s.hex := rfl
@[simp] theorem State.writeStatus_msgLen (v : Word) : (s.writeStatus v).msgLen = s.msgLen := rfl
@[simp] theorem State.writeStatus_nblk (v : Word) : (s.writeStatus v).nblk = s.nblk := rfl
@[simp] theorem State.writeStatus_blkIdx (v : Word) : (s.writeStatus v).blkIdx = s.blkIdx := rfl
@[simp] theorem State.writeStatus_roundCtr (v : Word) : (s.writeStatus v).roundCtr = s.roundCtr := rfl
@[simp] theorem State.writeStatus_busy (v : Word) : (s.writeStatus v).busy = s.busy := rfl
@[simp] theorem State.writeStatus_done (v : Word) : (s.writeStatus v).done = (s.done && !v.getLsbD 1) := rfl
@[simp] theorem State.writeStatus_err (v : Word) : (s.writeStatus v).err = s.err := rfl
@[simp] theorem State.writeStatus_ovr (v : Word) : (s.writeStatus v).ovr = (s.ovr && !v.getLsbD 5) := rfl
@[simp] theorem State.writeStatus_padded (v : Word) : (s.writeStatus v).padded = s.padded := rfl
@[simp] theorem State.writeStatus_phase (v : Word) : (s.writeStatus v).phase = s.phase := rfl
@[simp] theorem State.writeStatus_doneIe (v : Word) : (s.writeStatus v).doneIe = s.doneIe := rfl
@[simp] theorem State.writeStatus_pending (v : Word) : (s.writeStatus v).pending = s.pending := rfl
@[simp] theorem State.writeStatus_msgEpoch (v : Word) : (s.writeStatus v).msgEpoch = s.msgEpoch := rfl
@[simp] theorem State.writeStatus_draws (v : Word) : (s.writeStatus v).draws = s.draws := rfl
@[simp] theorem State.writeStatus_turns (v : Word) : (s.writeStatus v).turns = s.turns := rfl
@[simp] theorem State.writeStatus_replies (v : Word) : (s.writeStatus v).replies = s.replies := rfl
@[simp] theorem State.writeStatus_msgByte (v : Word) (k : Nat) : (s.writeStatus v).msgByte k = s.msgByte k := rfl

/-! ## `State.writeIrqEn` (R73) -/

@[simp] theorem State.writeIrqEn_cfg (v : Word) : (s.writeIrqEn v).cfg = s.cfg := rfl
@[simp] theorem State.writeIrqEn_h (v : Word) : (s.writeIrqEn v).h = s.h := rfl
@[simp] theorem State.writeIrqEn_wv (v : Word) : (s.writeIrqEn v).wv = s.wv := rfl
@[simp] theorem State.writeIrqEn_w (v : Word) : (s.writeIrqEn v).w = s.w := rfl
@[simp] theorem State.writeIrqEn_mem (v : Word) : (s.writeIrqEn v).mem = s.mem := rfl
@[simp] theorem State.writeIrqEn_hex (v : Word) : (s.writeIrqEn v).hex = s.hex := rfl
@[simp] theorem State.writeIrqEn_msgLen (v : Word) : (s.writeIrqEn v).msgLen = s.msgLen := rfl
@[simp] theorem State.writeIrqEn_nblk (v : Word) : (s.writeIrqEn v).nblk = s.nblk := rfl
@[simp] theorem State.writeIrqEn_blkIdx (v : Word) : (s.writeIrqEn v).blkIdx = s.blkIdx := rfl
@[simp] theorem State.writeIrqEn_roundCtr (v : Word) : (s.writeIrqEn v).roundCtr = s.roundCtr := rfl
@[simp] theorem State.writeIrqEn_busy (v : Word) : (s.writeIrqEn v).busy = s.busy := rfl
@[simp] theorem State.writeIrqEn_done (v : Word) : (s.writeIrqEn v).done = s.done := rfl
@[simp] theorem State.writeIrqEn_err (v : Word) : (s.writeIrqEn v).err = s.err := rfl
@[simp] theorem State.writeIrqEn_ovr (v : Word) : (s.writeIrqEn v).ovr = s.ovr := rfl
@[simp] theorem State.writeIrqEn_padded (v : Word) : (s.writeIrqEn v).padded = s.padded := rfl
@[simp] theorem State.writeIrqEn_phase (v : Word) : (s.writeIrqEn v).phase = s.phase := rfl
@[simp] theorem State.writeIrqEn_doneIe (v : Word) : (s.writeIrqEn v).doneIe = v.getLsbD 0 := rfl
@[simp] theorem State.writeIrqEn_pending (v : Word) : (s.writeIrqEn v).pending = s.pending := rfl
@[simp] theorem State.writeIrqEn_msgEpoch (v : Word) : (s.writeIrqEn v).msgEpoch = s.msgEpoch := rfl
@[simp] theorem State.writeIrqEn_draws (v : Word) : (s.writeIrqEn v).draws = s.draws := rfl
@[simp] theorem State.writeIrqEn_turns (v : Word) : (s.writeIrqEn v).turns = s.turns := rfl
@[simp] theorem State.writeIrqEn_replies (v : Word) : (s.writeIrqEn v).replies = s.replies := rfl
@[simp] theorem State.writeIrqEn_msgByte (v : Word) (k : Nat) : (s.writeIrqEn v).msgByte k = s.msgByte k := rfl

/-! ## `State.writeMsgLen` (R71) -/

@[simp] theorem State.writeMsgLen_cfg (v : Word) : (s.writeMsgLen v).cfg = s.cfg := rfl
@[simp] theorem State.writeMsgLen_h (v : Word) : (s.writeMsgLen v).h = s.h := rfl
@[simp] theorem State.writeMsgLen_wv (v : Word) : (s.writeMsgLen v).wv = s.wv := rfl
@[simp] theorem State.writeMsgLen_w (v : Word) : (s.writeMsgLen v).w = s.w := rfl
@[simp] theorem State.writeMsgLen_mem (v : Word) : (s.writeMsgLen v).mem = s.mem := rfl
@[simp] theorem State.writeMsgLen_hex (v : Word) : (s.writeMsgLen v).hex = s.hex := rfl
@[simp] theorem State.writeMsgLen_msgLen (v : Word) : (s.writeMsgLen v).msgLen = v := rfl
@[simp] theorem State.writeMsgLen_nblk (v : Word) : (s.writeMsgLen v).nblk = 0 := rfl
@[simp] theorem State.writeMsgLen_blkIdx (v : Word) : (s.writeMsgLen v).blkIdx = 0 := rfl
@[simp] theorem State.writeMsgLen_roundCtr (v : Word) : (s.writeMsgLen v).roundCtr = 0 := rfl
@[simp] theorem State.writeMsgLen_busy (v : Word) : (s.writeMsgLen v).busy = s.busy := rfl
@[simp] theorem State.writeMsgLen_done (v : Word) : (s.writeMsgLen v).done = s.done := rfl
@[simp] theorem State.writeMsgLen_err (v : Word) : (s.writeMsgLen v).err = s.err := rfl
@[simp] theorem State.writeMsgLen_ovr (v : Word) : (s.writeMsgLen v).ovr = s.ovr := rfl
@[simp] theorem State.writeMsgLen_padded (v : Word) : (s.writeMsgLen v).padded = false := rfl
@[simp] theorem State.writeMsgLen_phase (v : Word) : (s.writeMsgLen v).phase = .empty := rfl
@[simp] theorem State.writeMsgLen_doneIe (v : Word) : (s.writeMsgLen v).doneIe = s.doneIe := rfl
@[simp] theorem State.writeMsgLen_pending (v : Word) : (s.writeMsgLen v).pending = s.pending := rfl
@[simp] theorem State.writeMsgLen_msgEpoch (v : Word) : (s.writeMsgLen v).msgEpoch = s.msgEpoch := rfl
@[simp] theorem State.writeMsgLen_draws (v : Word) : (s.writeMsgLen v).draws = s.draws := rfl
@[simp] theorem State.writeMsgLen_turns (v : Word) : (s.writeMsgLen v).turns = s.turns := rfl
@[simp] theorem State.writeMsgLen_replies (v : Word) : (s.writeMsgLen v).replies = s.replies := rfl
@[simp] theorem State.writeMsgLen_msgByte (v : Word) (k : Nat) : (s.writeMsgLen v).msgByte k = s.msgByte k := rfl

/-! ## `State.answer` (log 4) -/

@[simp] theorem State.answer_cfg (b : Bool) (r : Response) : (s.answer b r).cfg = s.cfg := rfl
@[simp] theorem State.answer_h (b : Bool) (r : Response) : (s.answer b r).h = s.h := rfl
@[simp] theorem State.answer_wv (b : Bool) (r : Response) : (s.answer b r).wv = s.wv := rfl
@[simp] theorem State.answer_w (b : Bool) (r : Response) : (s.answer b r).w = s.w := rfl
@[simp] theorem State.answer_mem (b : Bool) (r : Response) : (s.answer b r).mem = s.mem := rfl
@[simp] theorem State.answer_hex (b : Bool) (r : Response) : (s.answer b r).hex = s.hex := rfl
@[simp] theorem State.answer_msgLen (b : Bool) (r : Response) : (s.answer b r).msgLen = s.msgLen := rfl
@[simp] theorem State.answer_nblk (b : Bool) (r : Response) : (s.answer b r).nblk = s.nblk := rfl
@[simp] theorem State.answer_blkIdx (b : Bool) (r : Response) : (s.answer b r).blkIdx = s.blkIdx := rfl
@[simp] theorem State.answer_roundCtr (b : Bool) (r : Response) : (s.answer b r).roundCtr = s.roundCtr := rfl
@[simp] theorem State.answer_busy (b : Bool) (r : Response) : (s.answer b r).busy = s.busy := rfl
@[simp] theorem State.answer_done (b : Bool) (r : Response) : (s.answer b r).done = s.done := rfl
@[simp] theorem State.answer_err (b : Bool) (r : Response) : (s.answer b r).err = s.err := rfl
@[simp] theorem State.answer_ovr (b : Bool) (r : Response) : (s.answer b r).ovr = s.ovr := rfl
@[simp] theorem State.answer_padded (b : Bool) (r : Response) : (s.answer b r).padded = s.padded := rfl
@[simp] theorem State.answer_phase (b : Bool) (r : Response) : (s.answer b r).phase = s.phase := rfl
@[simp] theorem State.answer_doneIe (b : Bool) (r : Response) : (s.answer b r).doneIe = s.doneIe := rfl
@[simp] theorem State.answer_pending (b : Bool) (r : Response) : (s.answer b r).pending = s.pending := rfl
@[simp] theorem State.answer_msgEpoch (b : Bool) (r : Response) : (s.answer b r).msgEpoch = s.msgEpoch := rfl
@[simp] theorem State.answer_draws (b : Bool) (r : Response) : (s.answer b r).draws = s.draws := rfl
@[simp] theorem State.answer_turns (b : Bool) (r : Response) : (s.answer b r).turns = s.turns := rfl
@[simp] theorem State.answer_replies (b : Bool) (r : Response) : (s.answer b r).replies = { busy := b, response := r } :: s.replies := rfl
@[simp] theorem State.answer_msgByte (b : Bool) (r : Response) (k : Nat) : (s.answer b r).msgByte k = s.msgByte k := rfl

/-! ## `State.loadIv` (R227) -/

@[simp] theorem State.loadIv_cfg : s.loadIv.cfg = s.cfg := rfl
@[simp] theorem State.loadIv_h : s.loadIv.h = iv := rfl
@[simp] theorem State.loadIv_wv : s.loadIv.wv = s.wv := rfl
@[simp] theorem State.loadIv_w : s.loadIv.w = s.w := rfl
@[simp] theorem State.loadIv_mem : s.loadIv.mem = s.mem := rfl
@[simp] theorem State.loadIv_hex : s.loadIv.hex = s.hex := rfl
@[simp] theorem State.loadIv_msgLen : s.loadIv.msgLen = s.msgLen := rfl
@[simp] theorem State.loadIv_nblk : s.loadIv.nblk = s.nblk := rfl
@[simp] theorem State.loadIv_blkIdx : s.loadIv.blkIdx = 0 := rfl
@[simp] theorem State.loadIv_roundCtr : s.loadIv.roundCtr = 0 := rfl
@[simp] theorem State.loadIv_busy : s.loadIv.busy = s.busy := rfl
@[simp] theorem State.loadIv_done : s.loadIv.done = s.done := rfl
@[simp] theorem State.loadIv_err : s.loadIv.err = s.err := rfl
@[simp] theorem State.loadIv_ovr : s.loadIv.ovr = s.ovr := rfl
@[simp] theorem State.loadIv_padded : s.loadIv.padded = s.padded := rfl
@[simp] theorem State.loadIv_phase : s.loadIv.phase = .empty := rfl
@[simp] theorem State.loadIv_doneIe : s.loadIv.doneIe = s.doneIe := rfl
@[simp] theorem State.loadIv_pending : s.loadIv.pending = s.pending := rfl
@[simp] theorem State.loadIv_msgEpoch : s.loadIv.msgEpoch = s.msgEpoch := rfl
@[simp] theorem State.loadIv_draws : s.loadIv.draws = s.draws := rfl
@[simp] theorem State.loadIv_turns : s.loadIv.turns = s.turns := rfl
@[simp] theorem State.loadIv_replies : s.loadIv.replies = s.replies := rfl
@[simp] theorem State.loadIv_msgByte (k : Nat) : s.loadIv.msgByte k = s.msgByte k := rfl

/-! ## `State.formatHex` (R310) -/

@[simp] theorem State.formatHex_cfg : s.formatHex.cfg = s.cfg := rfl
@[simp] theorem State.formatHex_h : s.formatHex.h = s.h := rfl
@[simp] theorem State.formatHex_wv : s.formatHex.wv = s.wv := rfl
@[simp] theorem State.formatHex_w : s.formatHex.w = s.w := rfl
@[simp] theorem State.formatHex_mem : s.formatHex.mem = s.mem := rfl
@[simp] theorem State.formatHex_hex : s.formatHex.hex = hexDigest s.h := rfl
@[simp] theorem State.formatHex_msgLen : s.formatHex.msgLen = s.msgLen := rfl
@[simp] theorem State.formatHex_nblk : s.formatHex.nblk = s.nblk := rfl
@[simp] theorem State.formatHex_blkIdx : s.formatHex.blkIdx = s.blkIdx := rfl
@[simp] theorem State.formatHex_roundCtr : s.formatHex.roundCtr = s.roundCtr := rfl
@[simp] theorem State.formatHex_busy : s.formatHex.busy = s.busy := rfl
@[simp] theorem State.formatHex_done : s.formatHex.done = s.done := rfl
@[simp] theorem State.formatHex_err : s.formatHex.err = s.err := rfl
@[simp] theorem State.formatHex_ovr : s.formatHex.ovr = s.ovr := rfl
@[simp] theorem State.formatHex_padded : s.formatHex.padded = s.padded := rfl
@[simp] theorem State.formatHex_phase : s.formatHex.phase = s.phase := rfl
@[simp] theorem State.formatHex_doneIe : s.formatHex.doneIe = s.doneIe := rfl
@[simp] theorem State.formatHex_pending : s.formatHex.pending = s.pending := rfl
@[simp] theorem State.formatHex_msgEpoch : s.formatHex.msgEpoch = s.msgEpoch := rfl
@[simp] theorem State.formatHex_draws : s.formatHex.draws = s.draws := rfl
@[simp] theorem State.formatHex_turns : s.formatHex.turns = s.turns := rfl
@[simp] theorem State.formatHex_replies : s.formatHex.replies = s.replies := rfl
@[simp] theorem State.formatHex_msgByte (k : Nat) : s.formatHex.msgByte k = s.msgByte k := rfl

/-! ## `State.rebase` (R8) -/

@[simp] theorem State.rebase_cfg (b : Nat) : (s.rebase b).cfg = { s.cfg with base := b } := rfl
@[simp] theorem State.rebase_h (b : Nat) : (s.rebase b).h = s.h := rfl
@[simp] theorem State.rebase_wv (b : Nat) : (s.rebase b).wv = s.wv := rfl
@[simp] theorem State.rebase_w (b : Nat) : (s.rebase b).w = s.w := rfl
@[simp] theorem State.rebase_mem (b : Nat) : (s.rebase b).mem = s.mem := rfl
@[simp] theorem State.rebase_hex (b : Nat) : (s.rebase b).hex = s.hex := rfl
@[simp] theorem State.rebase_msgLen (b : Nat) : (s.rebase b).msgLen = s.msgLen := rfl
@[simp] theorem State.rebase_nblk (b : Nat) : (s.rebase b).nblk = s.nblk := rfl
@[simp] theorem State.rebase_blkIdx (b : Nat) : (s.rebase b).blkIdx = s.blkIdx := rfl
@[simp] theorem State.rebase_roundCtr (b : Nat) : (s.rebase b).roundCtr = s.roundCtr := rfl
@[simp] theorem State.rebase_busy (b : Nat) : (s.rebase b).busy = s.busy := rfl
@[simp] theorem State.rebase_done (b : Nat) : (s.rebase b).done = s.done := rfl
@[simp] theorem State.rebase_err (b : Nat) : (s.rebase b).err = s.err := rfl
@[simp] theorem State.rebase_ovr (b : Nat) : (s.rebase b).ovr = s.ovr := rfl
@[simp] theorem State.rebase_padded (b : Nat) : (s.rebase b).padded = s.padded := rfl
@[simp] theorem State.rebase_phase (b : Nat) : (s.rebase b).phase = s.phase := rfl
@[simp] theorem State.rebase_doneIe (b : Nat) : (s.rebase b).doneIe = s.doneIe := rfl
@[simp] theorem State.rebase_pending (b : Nat) : (s.rebase b).pending = s.pending := rfl
@[simp] theorem State.rebase_msgEpoch (b : Nat) : (s.rebase b).msgEpoch = s.msgEpoch := rfl
@[simp] theorem State.rebase_draws (b : Nat) : (s.rebase b).draws = s.draws := rfl
@[simp] theorem State.rebase_turns (b : Nat) : (s.rebase b).turns = s.turns := rfl
@[simp] theorem State.rebase_replies (b : Nat) : (s.rebase b).replies = s.replies := rfl
@[simp] theorem State.rebase_msgByte (b k : Nat) : (s.rebase b).msgByte k = s.msgByte k := rfl
@[simp] theorem State.rebase_rebase (b b' : Nat) : (s.rebase b).rebase b' = s.rebase b' := rfl

end Sys2Proof.Machine
end

