-- ==== Sys2Proof/Laws/Memory.lean ====
section
/-! SUPPORT. The laws of the message buffer's memory: read after write, the canonical form kept, and equal reads give
equal memories. -/

namespace Sys2Proof.Machine

theorem Memory.read_write (m : List Host.Cell) (k j : Nat) (v : Byte) :
    Memory.read (Memory.write m k v) j = if j = k then some v else Memory.read m j := by
  induction m with
  | nil => simp [Memory.write, Memory.read]
  | cons c rest ih =>
    obtain ⟨a, b⟩ := c
    simp only [Memory.write]
    split
    · simp [Memory.read]
    · split
      · subst_vars
        by_cases hj : j = a <;> simp [Memory.read, hj]
      · simp only [Memory.read, ih]
        by_cases hj : j = a
        · have : ¬ j = k := by omega
          simp [hj]; omega
        · simp [hj]

theorem Memory.mem_write {m : List Host.Cell} {k : Nat} {v : Byte} {c : Host.Cell}
    (h : c ∈ Memory.write m k v) : c = (k, v) ∨ c ∈ m := by
  induction m with
  | nil => simpa [Memory.write] using h
  | cons d rest ih =>
    obtain ⟨a, b⟩ := d
    simp only [Memory.write] at h
    split at h
    · simpa using h
    · split at h
      · simp only [List.mem_cons] at h ⊢
        tauto
      · rcases List.mem_cons.1 h with h | h
        · simp [h]
        · rcases ih h with h | h <;> simp [h]

theorem Memory.wf_write {m : List Host.Cell} (k : Nat) (v : Byte) (h : Memory.wf m) :
    Memory.wf (Memory.write m k v) := by
  induction m with
  | nil => simp [Memory.write, Memory.wf]
  | cons d rest ih =>
    obtain ⟨a, b⟩ := d
    obtain ⟨hlt, hrest⟩ := List.pairwise_cons.1 h
    simp only [Memory.write]
    split
    · rename_i hk
      refine List.pairwise_cons.2 ⟨?_, h⟩
      intro c hc
      rcases List.mem_cons.1 hc with rfl | hc
      · exact hk
      · exact lt_trans hk (hlt c hc)
    · split
      · subst_vars
        exact List.pairwise_cons.2 ⟨hlt, hrest⟩
      · refine List.pairwise_cons.2 ⟨?_, ih hrest⟩
        intro c hc
        rcases Memory.mem_write hc with rfl | hc
        · show a < k
          omega
        · exact hlt c hc

theorem Memory.read_writeBytes (bs : List Byte) (m : List Host.Cell) (k j : Nat) :
    Memory.read (Memory.writeBytes m k bs) j =
      if k ≤ j ∧ j < k + bs.length then some (bs.getD (j - k) 0) else Memory.read m j := by
  induction bs generalizing m k with
  | nil => simp [Memory.writeBytes]
  | cons b bs ih =>
    simp only [Memory.writeBytes, ih, Memory.read_write, List.length_cons]
    by_cases h1 : k + 1 ≤ j ∧ j < k + 1 + bs.length
    · obtain ⟨d, hd⟩ : ∃ d, j - k = d + 1 := ⟨j - k - 1, by omega⟩
      have hd' : j - (k + 1) = d := by omega
      rw [if_pos h1, if_pos (by omega), hd, hd']
      simp
    · rw [if_neg h1]
      by_cases h2 : j = k
      · subst h2
        simp
      · rw [if_neg h2, if_neg (by omega)]

theorem Memory.wf_writeBytes (bs : List Byte) {m : List Host.Cell} (k : Nat) (h : Memory.wf m) :
    Memory.wf (Memory.writeBytes m k bs) := by
  induction bs generalizing m k with
  | nil => exact h
  | cons b bs ih => exact ih (k + 1) (Memory.wf_write k b h)

theorem Memory.mem_writeBytes {bs : List Byte} {m : List Host.Cell} {k : Nat} {c : Host.Cell}
    (h : c ∈ Memory.writeBytes m k bs) : c ∈ m ∨ (k ≤ c.1 ∧ c.1 < k + bs.length) := by
  induction bs generalizing m k with
  | nil => exact .inl h
  | cons b bs ih =>
    rcases ih h with h | h
    · rcases Memory.mem_write h with rfl | h
      · exact .inr ⟨le_refl _, by simp⟩
      · exact .inl h
    · simp only [List.length_cons]
      exact .inr ⟨by omega, by omega⟩

theorem Memory.read_eq_none {m : List Host.Cell} {k : Nat} (h : ∀ c ∈ m, k < c.1) : Memory.read m k = none := by
  induction m with
  | nil => rfl
  | cons d rest ih =>
    have hd := h d (by simp)
    simp only [Memory.read]
    rw [if_neg (by omega)]
    exact ih fun c hc => h c (by simp [hc])

/-- Canonical memories with equal reads are equal data. -/
theorem Memory.ext_read {m m' : List Host.Cell} (h : Memory.wf m) (h' : Memory.wf m')
    (hr : ∀ k, Memory.read m k = Memory.read m' k) : m = m' := by
  induction m generalizing m' with
  | nil =>
    cases m' with
    | nil => rfl
    | cons d rest => simpa [Memory.read] using hr d.1
  | cons c rest ih =>
    obtain ⟨a, b⟩ := c
    cases m' with
    | nil => simpa [Memory.read] using hr a
    | cons d rest' =>
      obtain ⟨a', b'⟩ := d
      obtain ⟨hlt, hrest⟩ := List.pairwise_cons.1 h
      obtain ⟨hlt', hrest'⟩ := List.pairwise_cons.1 h'
      have haa : a = a' := by
        rcases Nat.lt_trichotomy a a' with hl | hl | hl
        · have hn : Memory.read ((a', b') :: rest') a = none := Memory.read_eq_none fun c hc => by
            rcases List.mem_cons.1 hc with rfl | hc
            · exact hl
            · exact lt_trans hl (hlt' c hc)
          have := hr a
          rw [hn] at this
          simp [Memory.read] at this
        · exact hl
        · have hn : Memory.read ((a, b) :: rest) a' = none := Memory.read_eq_none fun c hc => by
            rcases List.mem_cons.1 hc with rfl | hc
            · exact hl
            · exact lt_trans hl (hlt c hc)
          have := hr a'
          rw [hn] at this
          simp [Memory.read] at this
      subst haa
      have hb : b = b' := by simpa [Memory.read] using hr a
      subst hb
      congr 1
      refine ih hrest hrest' fun k => ?_
      by_cases hk : k = a
      · subst hk
        rw [Memory.read_eq_none hlt, Memory.read_eq_none hlt']
      · simpa [Memory.read, hk] using hr k

theorem Memory.writeBytes_twice (bs : List Byte) {m : List Host.Cell} (k : Nat) (h : Memory.wf m) :
    Memory.writeBytes (Memory.writeBytes m k bs) k bs = Memory.writeBytes m k bs := by
  refine Memory.ext_read (Memory.wf_writeBytes bs k (Memory.wf_writeBytes bs k h)) (Memory.wf_writeBytes bs k h) ?_
  intro j
  simp only [Memory.read_writeBytes]
  split <;> rfl

theorem State.msgByte_writeBytes (s : State) (bs : List Byte) (k j : Nat) :
    { s with mem := Memory.writeBytes s.mem k bs }.msgByte j =
      if k ≤ j ∧ j < k + bs.length then bs.getD (j - k) 0 else s.msgByte j := by
  simp only [State.msgByte, Memory.read_writeBytes]
  split <;> simp

/-- The buffer stays canonical and inside MSG when a range inside MSG is written. -/
theorem State.MemInv.writeBytes {s : State} (h : s.MemInv) {k : Nat} {bs : List Byte}
    (hk : k + bs.length ≤ s.cfg.msgCap) : { s with mem := Memory.writeBytes s.mem k bs }.MemInv := by
  refine ⟨Memory.wf_writeBytes bs k h.1, fun c hc => ?_⟩
  rcases Memory.mem_writeBytes hc with hc | hc
  · exact h.2 c hc
  · exact lt_of_lt_of_le hc.2 hk

/-- Two states with the same buffer show the same bytes. -/
theorem State.msgByte_congr {s t : State} (hm : t.mem = s.mem) (he : t.msgEpoch = s.msgEpoch) (k : Nat) :
    t.msgByte k = s.msgByte k := by
  simp [State.msgByte, hm, he]

end Sys2Proof.Machine
end

