-- ==== Sys2Proof/Laws/Ops.lean ====
section
/-! SUPPORT. Once for each shared operation, everything it can do: the engine's access to MSG, the padding in place, the
compression of a Block, and the loop over the Blocks. -/

namespace Sys2Proof.Machine

/-- `memRead` answers exactly inside the buffer, with the bytes that are there. -/
theorem State.memRead_of_le {s : State} {k n : Nat} (h : k + n ≤ s.cfg.msgCap) :
    s.memRead k n = some (Vector.ofFn fun i : Fin n => s.msgByte (k + i.val)) := by
  simp [State.memRead, h]

theorem State.memRead_eq_some {s : State} {k n : Nat} {b : Vector Byte n} :
    s.memRead k n = some b ↔ k + n ≤ s.cfg.msgCap ∧ ∀ i : Fin n, b[i] = s.msgByte (k + i.val) := by
  constructor
  · intro h
    unfold State.memRead at h
    split at h
    · rename_i hk
      refine ⟨hk, fun i => ?_⟩
      rw [← Option.some.inj h]
      simp
    · cases h
  · rintro ⟨hk, hb⟩
    rw [State.memRead_of_le hk]
    refine congrArg some (Vector.ext fun i hi => ?_)
    simpa using (hb ⟨i, hi⟩).symm

/-- States that show the same bytes in a buffer of the same size read the same. -/
theorem State.memRead_congr {s t : State} (hc : t.cfg.msgCap = s.cfg.msgCap) (hb : ∀ k, t.msgByte k = s.msgByte k)
    (k n : Nat) : t.memRead k n = s.memRead k n := by
  simp only [State.memRead, hc, hb]

theorem State.memWrite_eq_some {s t : State} {k : Nat} {bs : List Byte} (h : s.memWrite k bs = some t) :
    k + bs.length ≤ s.cfg.msgCap ∧ t = { s with mem := Memory.writeBytes s.mem k bs } := by
  unfold State.memWrite at h
  split at h
  · exact ⟨‹_›, (Option.some.inj h).symm⟩
  · cases h

/-- The state after a padding that fits. -/
def State.paddedState (s : State) : State :=
  { s with
    mem := Memory.writeBytes s.mem s.msgLen.toNat (padBytes s.cfg.lenMode s.msgLen.toNat)
    nblk := BitVec.ofNat 32 (nblkOf s.msgLen.toNat), blkIdx := 0, roundCtr := 0, padded := true, phase := .empty }

/-- The padding in place never fails when the Padded Message fits (R121, R240). -/
theorem State.padInPlace_of_le {s : State} (h : padLen s.msgLen.toNat ≤ s.cfg.msgCap) :
    s.padInPlace = some s.paddedState := by
  have hp := padLen_ge s.msgLen.toNat
  have hl := padBytes_length s.cfg.lenMode s.msgLen.toNat
  simp only [State.padInPlace, State.memWrite]
  rw [if_pos (by omega)]
  rfl

theorem State.padInPlace_eq_some {s t : State} (h : s.padInPlace = some t) :
    padLen s.msgLen.toNat ≤ s.cfg.msgCap ∧ t = s.paddedState := by
  have hp := padLen_ge s.msgLen.toNat
  have hl := padBytes_length s.cfg.lenMode s.msgLen.toNat
  unfold State.padInPlace at h
  dsimp only at h
  split at h
  · cases h
  · rename_i u hu
    obtain ⟨h1, rfl⟩ := State.memWrite_eq_some hu
    exact ⟨by omega, (Option.some.inj h).symm⟩

/-- Every byte of the buffer after the padding (R240). -/
theorem State.paddedState_msgByte (s : State) (k : Nat) :
    s.paddedState.msgByte k =
      if s.msgLen.toNat ≤ k ∧ k < padLen s.msgLen.toNat then
        (padBytes s.cfg.lenMode s.msgLen.toNat).getD (k - s.msgLen.toNat) 0
      else s.msgByte k := by
  have hp := padLen_ge s.msgLen.toNat
  have hl := padBytes_length s.cfg.lenMode s.msgLen.toNat
  have h := s.msgByte_writeBytes (padBytes s.cfg.lenMode s.msgLen.toNat) s.msgLen.toNat k
  have e : s.paddedState.msgByte k =
      { s with mem := Memory.writeBytes s.mem s.msgLen.toNat (padBytes s.cfg.lenMode s.msgLen.toNat) }.msgByte k := rfl
  rw [e, h]
  congr 1
  apply propext
  omega

/-! ## The Message and the Padded Message in the buffer -/

theorem State.message_length (s : State) : s.message.length = s.msgLen.toNat := by simp [State.message]

theorem State.message_getElem? (s : State) (k : Nat) (h : k < s.msgLen.toNat) :
    s.message[k]? = some (s.msgByte k) := by
  simp [State.message, List.getElem?_range h]

/-- The buffer after the padding holds the Padded Message (R241). -/
theorem State.paddedMessage_getElem? (s : State) (k : Nat) (h : k < padLen s.msgLen.toNat) :
    (paddedMessage s.cfg.lenMode s.message)[k]? = some (s.paddedState.msgByte k) := by
  have hl := padBytes_length s.cfg.lenMode s.msgLen.toNat
  rw [State.paddedState_msgByte]
  by_cases hk : k < s.msgLen.toNat
  · rw [if_neg (by omega), paddedMessage, List.getElem?_append_left (by rw [State.message_length]; exact hk),
      State.message_getElem? s k hk]
  · rw [if_pos ⟨by omega, h⟩, paddedMessage, List.getElem?_append_right (by rw [State.message_length]; omega),
      State.message_length, List.getElem?_eq_getElem (by omega), List.getD_eq_getElem _ _ (by omega)]

/-- Block `j` of the buffer after the padding is Block `j` of the Padded Message (R241). -/
theorem State.paddedState_memRead (s : State) (j : Nat) (hj : j < nblkOf s.msgLen.toNat)
    (h : padLen s.msgLen.toNat ≤ s.cfg.msgCap) :
    s.paddedState.memRead (64 * j) 64 = some (blockOf (paddedMessage s.cfg.lenMode s.message) j) := by
  have hp := padLen_eq s.msgLen.toNat
  rw [State.memRead_eq_some]
  refine ⟨by show 64 * j + 64 ≤ s.cfg.msgCap; omega, fun i => ?_⟩
  have hi := i.isLt
  rw [blockOf_getElem, List.getD_eq_getElem?_getD, State.paddedMessage_getElem? s _ (by omega)]
  rfl

/-! ## Compression -/

/-- The state after the Block `b` is compressed into `H`. -/
def State.withBlock (s : State) (b : Vector Byte 64) : State :=
  { s with
    w := schedule b
    wv := rounds (schedule b) 0 64 s.h
    h := compressBlock s.h b }

theorem State.compressAt_of_memRead {s : State} {j : Nat} {b : Vector Byte 64}
    (h : s.memRead (64 * j) 64 = some b) : s.compressAt j = some (s.withBlock b) := by
  unfold State.compressAt
  rw [h]
  rfl

theorem State.compressAt_eq_some {s t : State} {j : Nat} (h : s.compressAt j = some t) :
    ∃ b, s.memRead (64 * j) 64 = some b ∧ t = s.withBlock b := by
  unfold State.compressAt at h
  split at h
  · cases h
  · rename_i b hb
    exact ⟨b, hb, (Option.some.inj h).symm⟩

/-- One Block of DIGEST's loop. -/
theorem State.compressFrom_succ {s : State} {j n : Nat} {b : Vector Byte 64}
    (h : s.memRead (64 * j) 64 = some b) : s.compressFrom j (n + 1) = (s.withBlock b).compressFrom (j + 1) n := by
  rw [State.compressFrom, State.compressAt_of_memRead h]

/-- The loop changes `H`, `W` and `WV` only. -/
theorem State.compressFrom_frame {s t : State} {j n : Nat} (h : s.compressFrom j n = some t) :
    t = { s with h := t.h, w := t.w, wv := t.wv } := by
  induction n generalizing s j with
  | zero =>
    rw [State.compressFrom] at h
    cases h
    rfl
  | succ n ih =>
    rw [State.compressFrom] at h
    split at h
    · cases h
    · rename_i u hu
      obtain ⟨b, -, rfl⟩ := State.compressAt_eq_some hu
      have := ih h
      exact this

/-- The loop from Block `j` of the Padded Message `p`, with `H` the chaining value after the first `j` Blocks: `H` is
chained over `n + 1` Blocks, `W` and `WV` are the last Block's. -/
theorem State.compressFrom_chain {s : State} {p : List Byte} (n j : Nat)
    (hb : ∀ i, i < j + (n + 1) → s.memRead (64 * i) 64 = some (blockOf p i)) (hh : s.h = chain p j) :
    s.compressFrom j (n + 1) = some { s with
      h := chain p (j + (n + 1))
      w := schedule (blockOf p (j + n))
      wv := rounds (schedule (blockOf p (j + n))) 0 64 (chain p (j + n)) } := by
  induction n generalizing s j with
  | zero =>
    rw [State.compressFrom_succ (hb j (by omega)), State.compressFrom]
    simp only [State.withBlock, hh, Nat.add_zero, Nat.zero_add]
    rfl
  | succ n ih =>
    rw [State.compressFrom_succ (hb j (by omega)), ih (j + 1)]
    · simp only [State.withBlock, show j + 1 + (n + 1) = j + (n + 1 + 1) by omega, show j + 1 + n = j + (n + 1) by omega]
    · intro i hi
      exact hb i (by omega)
    · simp only [State.withBlock, hh]
      rfl

end Sys2Proof.Machine
end

