-- ==== Sys2Proof/Laws/Bus.lean ====
section
/-! SUPPORT. The bus side: the target at each offset of the register map, and everything serving a transaction can do. -/

namespace Sys2Proof.Machine

/-- The block sees the offset from BASE only (R8). -/
theorem accessTarget_at (c : Config) (dir : Dir) (off : Nat) (size : Size) :
    accessTarget c dir (c.base + off) size =
      if size = .word ∧ off % 4 ≠ 0 then none
      else (regionAt c.msgCap off).bind fun r => if admits dir size r then some r else none := by
  unfold accessTarget
  rw [if_neg (by omega), Nat.add_sub_cancel_left]
  split
  · rfl
  · cases regionAt c.msgCap off <;> rfl

/-! ## The target at each offset (R67) -/

theorem regionAt_h (cap : Nat) (i : Fin 8) : regionAt cap (0x040 + 4 * i.val) = some (.h i) := by
  have := i.isLt
  unfold regionAt
  iterate 10 rw [if_neg (by omega)]
  rw [if_pos (by omega), show (0x040 + 4 * i.val - 0x040) / 4 = i.val by omega]
  simp

theorem regionAt_wv (cap : Nat) (i : Fin 8) : regionAt cap (0x060 + 4 * i.val) = some (.wv i) := by
  have := i.isLt
  unfold regionAt
  iterate 11 rw [if_neg (by omega)]
  rw [if_pos (by omega), show (0x060 + 4 * i.val - 0x060) / 4 = i.val by omega]
  simp

theorem regionAt_w (cap : Nat) (t : Fin 64) : regionAt cap (0x100 + 4 * t.val) = some (.w t) := by
  have := t.isLt
  unfold regionAt
  iterate 13 rw [if_neg (by omega)]
  rw [if_pos (by omega), show (0x100 + 4 * t.val - 0x100) / 4 = t.val by omega]
  simp

theorem regionAt_hex (cap : Nat) (k : Fin 64) : regionAt cap (0x200 + k.val) = some (.hex k) := by
  have := k.isLt
  unfold regionAt
  iterate 14 rw [if_neg (by omega)]
  rw [if_pos (by omega), show 0x200 + k.val - 0x200 = k.val by omega]
  simp

theorem regionAt_msg (cap k : Nat) (h : k < cap) : regionAt cap (0x1000 + k) = some (.msg k) := by
  unfold regionAt
  iterate 16 rw [if_neg (by omega)]
  rw [if_pos (by omega), show 0x1000 + k - 0x1000 = k by omega]

/-- A conditional whose first branch is not the value takes the second. -/
theorem ite_eq_of_ne {α : Type} {c : Prop} [Decidable c] {a b r : α} (h : (if c then a else b) = r) (ha : a ≠ r) :
    ¬ c ∧ b = r := by
  by_cases hc : c
  · rw [if_pos hc] at h
    exact absurd h ha
  · rw [if_neg hc] at h
    exact ⟨hc, h⟩

/-- A target of MSG is an offset of MSG. -/
theorem regionAt_eq_msg {cap off k : Nat} (h : regionAt cap off = some (.msg k)) :
    k < cap ∧ off = 0x1000 + k := by
  unfold regionAt at h
  iterate 16
    obtain ⟨_, h⟩ := ite_eq_of_ne h (fun e => by first | injection e with e; exact Region.noConfusion e | injection e)
  by_cases hc : off < 0x1000 + cap
  · rw [if_pos hc] at h
    have hk := Region.msg.inj (Option.some.inj h)
    omega
  · rw [if_neg hc] at h
    injection h

/-- The offsets of STATUS. -/
theorem regionAt_eq_status {cap off : Nat} (h : regionAt cap off = some .status) : 0x004 ≤ off ∧ off < 0x008 := by
  unfold regionAt at h
  obtain ⟨_, h⟩ := ite_eq_of_ne h (fun e => by injection e with e; exact Region.noConfusion e)
  by_cases hc : off < 0x008
  · omega
  · rw [if_neg hc] at h
    iterate 15
      obtain ⟨_, h⟩ := ite_eq_of_ne h (fun e => by first | injection e with e; exact Region.noConfusion e | injection e)
    injection h

/-- The offsets of IRQ_EN. -/
theorem regionAt_eq_irqEn {cap off : Nat} (h : regionAt cap off = some .irqEn) : 0x008 ≤ off ∧ off < 0x00C := by
  unfold regionAt at h
  obtain ⟨_, h⟩ := ite_eq_of_ne h (fun e => by injection e with e; exact Region.noConfusion e)
  obtain ⟨_, h⟩ := ite_eq_of_ne h (fun e => by injection e with e; exact Region.noConfusion e)
  by_cases hc : off < 0x00C
  · omega
  · rw [if_neg hc] at h
    iterate 14
      obtain ⟨_, h⟩ := ite_eq_of_ne h (fun e => by first | injection e with e; exact Region.noConfusion e | injection e)
    injection h

/-- The offsets of CTRL. -/
theorem regionAt_eq_ctrl {cap off : Nat} (h : regionAt cap off = some .ctrl) : off < 0x004 := by
  unfold regionAt at h
  by_cases hc : off < 0x004
  · exact hc
  · rw [if_neg hc] at h
    iterate 16
      obtain ⟨_, h⟩ := ite_eq_of_ne h (fun e => by first | injection e with e; exact Region.noConfusion e | injection e)
    injection h

/-- The offsets of MSG_LEN. -/
theorem regionAt_eq_msgLen {cap off : Nat} (h : regionAt cap off = some .msgLen) : 0x00C ≤ off ∧ off < 0x010 := by
  unfold regionAt at h
  iterate 3
    obtain ⟨_, h⟩ := ite_eq_of_ne h (fun e => by injection e with e; exact Region.noConfusion e)
  by_cases hc : off < 0x010
  · omega
  · rw [if_neg hc] at h
    iterate 13
      obtain ⟨_, h⟩ := ite_eq_of_ne h (fun e => by first | injection e with e; exact Region.noConfusion e | injection e)
    injection h

/-- What an admitted access says (R106, R107). -/
theorem accessTarget_eq_some {c : Config} {dir : Dir} {addr : Nat} {size : Size} {r : Region}
    (h : accessTarget c dir addr size = some r) :
    c.base ≤ addr ∧ (size = .word → (addr - c.base) % 4 = 0) ∧ regionAt c.msgCap (addr - c.base) = some r ∧
      admits dir size r = true := by
  unfold accessTarget at h
  split at h
  · cases h
  · split at h
    · cases h
    · rename_i h1 h2
      split at h
      · cases h
      · rename_i r' hr
        split at h
        · obtain rfl := Option.some.inj h
          refine ⟨by omega, fun hs => ?_, hr, ‹_›⟩
          by_contra hne
          exact h2 ⟨hs, hne⟩
        · cases h

/-- The bytes of an accepted write to MSG lie inside MSG (R107): MSG_CAP is a multiple of 64. -/
theorem laneBytes_inside {c : Config} {addr k : Nat} {size : Size} {v : Word} (hc : c.Legal)
    (h : accessTarget c .write addr size = some (.msg k)) : k + (laneBytes size v).length ≤ c.msgCap := by
  obtain ⟨-, hal, hr, -⟩ := accessTarget_eq_some h
  obtain ⟨hk, ho⟩ := regionAt_eq_msg hr
  obtain ⟨h64, -⟩ := hc
  cases size with
  | word =>
    have := hal rfl
    simp only [laneBytes, List.length_cons, List.length_nil]
    omega
  | half => simp only [laneBytes, List.length_cons, List.length_nil]; omega
  | byte => simp only [laneBytes, List.length_cons, List.length_nil]; omega

/-- The targets a write can have (R106). -/
theorem write_target_cases {size : Size} {r : Region} (h : admits .write size r = true) :
    r = .ctrl ∨ r = .status ∨ r = .irqEn ∨ r = .msgLen ∨ (∃ i, r = .h i) ∨ (∃ k, r = .msg k) := by
  cases r <;> simp_all [admits]

/-- An aligned access to an offset whose target admits it. -/
theorem accessTarget_of_region {c : Config} {dir : Dir} {off : Nat} {size : Size} {r : Region}
    (h1 : size = .word → off % 4 = 0) (h2 : regionAt c.msgCap off = some r) (h3 : admits dir size r = true) :
    accessTarget c dir (c.base + off) size = some r := by
  rw [accessTarget_at, if_neg (fun h => h.2 (h1 h.1)), h2]
  simp [h3]

/-- A write that BUSY = 1 does not drop goes to STATUS or to IRQ_EN (R111). -/
theorem accessTarget_write_cases {c : Config} {addr : Nat} {size : Size} {r : Region}
    (h : accessTarget c .write addr size = some r) :
    lockedTarget r = true ∨ (r = .status ∧ size = .word ∧ addr = c.base + 0x004) ∨
      (r = .irqEn ∧ size = .word ∧ addr = c.base + 0x008) := by
  obtain ⟨h1, h2, h3, h4⟩ := accessTarget_eq_some h
  rcases write_target_cases h4 with rfl | rfl | rfl | rfl | ⟨i, rfl⟩ | ⟨k, rfl⟩
  · exact .inl rfl
  · have hs : size = .word := by simpa [admits] using h4
    have := regionAt_eq_status h3
    have := h2 hs
    exact .inr (.inl ⟨rfl, hs, by omega⟩)
  · have hs : size = .word := by simpa [admits] using h4
    have := regionAt_eq_irqEn h3
    have := h2 hs
    exact .inr (.inr ⟨rfl, hs, by omega⟩)
  all_goals exact .inl rfl

/-- A write to CTRL is a word write to its offset. -/
theorem accessTarget_write_ctrl {c : Config} {addr : Nat} {size : Size}
    (h : accessTarget c .write addr size = some .ctrl) : size = .word ∧ addr = c.base := by
  obtain ⟨h1, h2, h3, h4⟩ := accessTarget_eq_some h
  have hs : size = .word := by simpa [admits] using h4
  have := regionAt_eq_ctrl h3
  have := h2 hs
  exact ⟨hs, by omega⟩

/-- A write to MSG_LEN is a word write to its offset. -/
theorem accessTarget_write_msgLen {c : Config} {addr : Nat} {size : Size}
    (h : accessTarget c .write addr size = some .msgLen) : size = .word ∧ addr = c.base + 0x00C := by
  obtain ⟨h1, h2, h3, h4⟩ := accessTarget_eq_some h
  have hs : size = .word := by simpa [admits] using h4
  have := regionAt_eq_msgLen h3
  have := h2 hs
  exact ⟨hs, by omega⟩

/-- An address below BASE lies outside the window (R8; log 2). -/
theorem accessTarget_below {c : Config} {addr : Nat} (dir : Dir) (size : Size) (h : addr < c.base) :
    accessTarget c dir addr size = none := by
  unfold accessTarget
  rw [if_pos h]

/-- The target of an offset is the same at every BASE (R8). -/
theorem accessTarget_base (c : Config) (b b' off : Nat) (dir : Dir) (size : Size) :
    accessTarget { c with base := b } dir (b + off) size = accessTarget { c with base := b' } dir (b' + off) size :=
  (accessTarget_at { c with base := b } dir off size).trans (accessTarget_at { c with base := b' } dir off size).symm

/-- Bits 31:7 of what a read of ROUNDCTR draws are 0 (R50). -/
theorem drawFor_roundCtr_toNat (n : Nat) :
    (drawFor .roundCtr .word n).toNat = (Config.busyRead n).toNat % 2 ^ 7 := by
  simp only [drawFor, if_true, BitVec.toNat_setWidth]
  omega

/-- A word read of any other target draws the whole word (R111). -/
theorem drawFor_word {r : Region} (h : r ≠ .roundCtr) (n : Nat) : drawFor r .word n = Config.busyRead n := by
  simp only [drawFor, if_neg h]

/-- A byte read draws a byte, zero-extended (R111). -/
theorem drawFor_byte_toNat (r : Region) (n : Nat) :
    (drawFor r .byte n).toNat = (Config.busyRead n).toNat % 2 ^ 8 := by
  simp only [drawFor, BitVec.toNat_setWidth]
  omega

/-! ## Serving -/

/-- A read changes the model's own record only (R109, R112). -/
theorem State.serveRead_frame (s : State) (addr : Nat) (size : Size) :
    s.serveRead addr size =
      { s with draws := (s.serveRead addr size).draws, replies := (s.serveRead addr size).replies } := by
  unfold State.serveRead
  split
  · rfl
  · split <;> rfl

/-- Everything serving a write can do: a bus error, a drop, or the write. -/
theorem State.serveWrite_cases (s : State) (addr : Nat) (size : Size) (v : Word) :
    (accessTarget s.cfg .write addr size = none ∧ s.serveWrite addr size v = s.answer s.busy .writeError) ∨
    (∃ r, accessTarget s.cfg .write addr size = some r ∧ s.busy = true ∧ lockedTarget r = true ∧
      s.serveWrite addr size v = { s with ovr := true }.answer s.busy .writeOk) ∨
    (∃ r, accessTarget s.cfg .write addr size = some r ∧ (s.busy = false ∨ lockedTarget r = false) ∧
      s.serveWrite addr size v = (s.writeTarget size v r).answer s.busy .writeOk) := by
  unfold State.serveWrite
  split
  · exact .inl ⟨‹_›, rfl⟩
  · rename_i r hr
    split
    · rename_i hb
      simp only [Bool.and_eq_true] at hb
      exact .inr (.inl ⟨r, hr, hb.1, hb.2, rfl⟩)
    · rename_i hb
      simp only [Bool.and_eq_true, not_and, Bool.not_eq_true] at hb
      refine .inr (.inr ⟨r, hr, ?_, rfl⟩)
      cases hbusy : s.busy
      · exact .inl rfl
      · exact .inr (hb hbusy)

/-- A write to an admitted target that is not dropped. -/
theorem State.serveWrite_of_target {s : State} {addr : Nat} {size : Size} {r : Region} (v : Word)
    (h : accessTarget s.cfg .write addr size = some r) (hb : s.busy = false ∨ lockedTarget r = false) :
    s.serve (.write addr size v) = (s.writeTarget size v r).answer s.busy .writeOk := by
  show s.serveWrite addr size v = _
  unfold State.serveWrite
  rw [h]
  rcases hb with hb | hb <;> simp [hb]

/-- A dropped write (R111). -/
theorem State.serveWrite_dropped {s : State} {addr : Nat} {size : Size} {r : Region} (v : Word)
    (h : accessTarget s.cfg .write addr size = some r) (hb : s.busy = true) (hl : lockedTarget r = true) :
    s.serve (.write addr size v) = { s with ovr := true }.answer true .writeOk := by
  show s.serveWrite addr size v = _
  unfold State.serveWrite
  rw [h]
  simp [hb, hl]

/-- A read that returns the value (R109). -/
theorem State.serveRead_of_target {s : State} {addr : Nat} {size : Size} {r : Region}
    (h : accessTarget s.cfg .read addr size = some r) (hb : s.busy = false ∨ volatileTarget r = false) :
    s.serve (.read addr size) = s.answer s.busy (.readOk (s.readTarget size r)) := by
  show s.serveRead addr size = _
  unfold State.serveRead
  rw [h]
  rcases hb with hb | hb <;> simp [hb]

/-- Serving a transaction gives one answer, with BUSY as it was at the transaction. -/
theorem State.serve_replies (s : State) (x : BusTxn) :
    ∃ r : Response, (s.serve x).replies = { busy := s.busy, response := r } :: s.replies := by
  cases x with
  | read addr size =>
    show ∃ r : Response, (s.serveRead addr size).replies = _
    unfold State.serveRead
    split
    · exact ⟨_, rfl⟩
    · split <;> exact ⟨_, rfl⟩
  | write addr size v =>
    rw [show s.serve (.write addr size v) = s.serveWrite addr size v from rfl]
    rcases s.serveWrite_cases addr size v with ⟨_, e⟩ | ⟨r, _, _, _, e⟩ | ⟨r, _, _, e⟩ <;> rw [e]
    · exact ⟨_, rfl⟩
    · exact ⟨_, rfl⟩
    · cases r <;> exact ⟨_, rfl⟩

/-- Serving a transaction changes neither the parameters nor the coming turns nor the reset the bytes of MSG come from. -/
theorem State.serve_frame (s : State) (x : BusTxn) :
    (s.serve x).cfg = s.cfg ∧ (s.serve x).turns = s.turns ∧ (s.serve x).msgEpoch = s.msgEpoch ∧
      (s.serve x).hex = s.hex ∧ (s.serve x).w = s.w ∧ (s.serve x).wv = s.wv := by
  cases x with
  | read addr size =>
    rw [show s.serve (.read addr size) = s.serveRead addr size from rfl, s.serveRead_frame]
    exact ⟨rfl, rfl, rfl, rfl, rfl, rfl⟩
  | write addr size v =>
    rw [show s.serve (.write addr size v) = s.serveWrite addr size v from rfl]
    rcases s.serveWrite_cases addr size v with ⟨_, e⟩ | ⟨r, _, _, _, e⟩ | ⟨r, _, _, e⟩ <;> rw [e]
    · exact ⟨rfl, rfl, rfl, rfl, rfl, rfl⟩
    · exact ⟨rfl, rfl, rfl, rfl, rfl, rfl⟩
    · cases r <;> exact ⟨rfl, rfl, rfl, rfl, rfl, rfl⟩

end Sys2Proof.Machine
end

