-- ==== Sys2Proof/Laws/Decode.lean ====
section
/-! SUPPORT. The fields of a command word as numbers, and what decoding answers. -/

namespace Sys2Proof

theorem fieldOp_toNat (c : Word) : (fieldOp c).toNat = c.toNat % 2 ^ 4 := by
  simp [fieldOp, BitVec.extractLsb'_toNat]

theorem fieldN_toNat (c : Word) : (fieldN c).toNat = c.toNat / 2 ^ 8 % 2 ^ 7 := by
  simp [fieldN, BitVec.extractLsb'_toNat, Nat.shiftRight_eq_div_pow]

theorem fieldRes0_toNat (c : Word) : (fieldRes0 c).toNat = c.toNat / 2 ^ 4 % 2 ^ 4 := by
  simp [fieldRes0, BitVec.extractLsb'_toNat, Nat.shiftRight_eq_div_pow]

theorem fieldRes1_toNat (c : Word) : (fieldRes1 c).toNat = c.toNat / 2 ^ 15 := by
  have := c.isLt
  simp [fieldRes1, BitVec.extractLsb'_toNat, Nat.shiftRight_eq_div_pow]
  omega

theorem commandWord_toNat (n : BitVec 7) (op : BitVec 4) :
    (commandWord n op).toNat = n.toNat * 2 ^ 8 + op.toNat := by
  have h1 := n.isLt
  have h2 := op.isLt
  simp only [commandWord, BitVec.toNat_append]
  rw [← Nat.shiftLeft_add_eq_or_of_lt h1, ← Nat.shiftLeft_add_eq_or_of_lt (show BitVec.toNat (0 : BitVec 4) < 2 ^ 4 by decide),
    ← Nat.shiftLeft_add_eq_or_of_lt h2]
  simp [Nat.shiftLeft_eq]
  omega

theorem plainCommand_eq_ok {n : BitVec 7} {i j : Instr} : plainCommand n i = .ok j ↔ n = 0 ∧ i = j := by
  unfold plainCommand
  by_cases h : n = 0
  · simp [h]
  · rw [if_neg h]
    simp only [reduceCtorEq, false_iff, not_and]
    exact fun hn => absurd hn h

theorem roundCommand_eq_ok {n : BitVec 7} {j : Instr} :
    roundCommand n = .ok j ↔ 1 ≤ n.toNat ∧ n.toNat ≤ 64 ∧ Instr.round n = j := by
  have hz : n = 0 ↔ n.toNat = 0 := by
    constructor
    · rintro rfl
      rfl
    · intro h
      exact BitVec.eq_of_toNat_eq h
  unfold roundCommand
  by_cases h : n = 0 ∨ 64 < n.toNat
  · rw [if_pos h]
    rw [hz] at h
    simp only [reduceCtorEq, false_iff]
    omega
  · rw [if_neg h]
    rw [hz] at h
    simp only [Except.ok.injEq]
    constructor
    · intro hj
      exact ⟨by omega, by omega, hj⟩
    · exact fun hj => hj.2.2

theorem decode_eq_ok {c : Word} {i : Instr} :
    decode c = .ok i ↔ fieldRes1 c = 0 ∧ fieldRes0 c = 0 ∧ decodeOp (fieldOp c).toNat (fieldN c) = .ok i := by
  unfold decode
  by_cases h : fieldRes1 c ≠ 0 ∨ fieldRes0 c ≠ 0
  · rw [if_pos h]
    simp only [reduceCtorEq, false_iff]
    tauto
  · rw [if_neg h]
    simp only [ne_eq, not_or, not_not] at h
    simp [h]

/-- What the table word decodes to is what the decoder answers for it. -/
theorem decode_of_decodeTableWord {nbits w : Nat} {i : Instr} (h : decodeTableWord nbits w = some i) :
    decode (BitVec.ofNat 32 (w % 2 ^ nbits)) = .ok i := by
  unfold decodeTableWord at h
  split at h
  · rename_i j hj
    rw [← Option.some.inj h]
    exact hj
  · cases h

end Sys2Proof
end

