-- ==== Sys2Proof/Laws/Exec.lean ====
section
/-! SUPPORT. One lemma for each meaning, saying once everything it can do: the provers cite it instead of unfolding the
meaning. -/

namespace Sys2Proof.Machine

theorem raise_eq_next {c : ResultCode} {s t : State} : raise c s = .next t ↔ t = s.complete c := by
  unfold raise
  constructor
  · intro h
    cases h
    rfl
  · rintro rfl
    rfl

theorem finish_eq_next {s t : State} : finish s = .next t ↔ t = s.complete .ok := by
  unfold finish
  constructor
  · intro h
    cases h
    rfl
  · rintro rfl
    rfl

theorem State.noBlock_iff (s : State) : s.noBlock = true ↔ s.padded = false ∨ s.nblk.toNat ≤ s.blkIdx.toNat := by
  simp [State.noBlock, BitVec.le_def]

/-- PAD (R240). -/
theorem execPad_eq (s : State) :
    execPad s = if s.cfg.msgCap < padLen s.msgLen.toNat then raise .capacity s else finish s.paddedState := by
  unfold execPad
  split
  · rfl
  · rw [State.padInPlace_of_le (by omega)]

/-- SCHED (R260), when it gives a next state. -/
theorem execSched_cases {s t : State} (h : execSched s = .next t) :
    (s.noBlock = true ∧ t = s.complete .sequence) ∨
    (s.noBlock = false ∧ ∃ b, s.memRead (64 * s.blkIdx.toNat) 64 = some b ∧
      t = { s with w := schedule b, roundCtr := 0, phase := .scheduled }.complete .ok) := by
  unfold execSched at h
  split at h
  · exact .inl ⟨‹_›, raise_eq_next.1 h⟩
  · split at h
    · cases h
    · rename_i b hb
      exact .inr ⟨by simpa using ‹¬ s.noBlock = true›, b, hb, finish_eq_next.1 h⟩

theorem execSched_of_memRead {s : State} {b : Vector Byte 64} (hn : s.noBlock = false)
    (hb : s.memRead (64 * s.blkIdx.toNat) 64 = some b) :
    execSched s = finish { s with w := schedule b, roundCtr := 0, phase := .scheduled } := by
  unfold execSched
  simp only [hn, hb]
  rfl

/-- WVLOAD (R280). -/
theorem execWvload_cases {s t : State} (h : execWvload s = .next t) :
    (s.phase = .empty ∧ t = s.complete .sequence) ∨
    (s.phase ≠ .empty ∧ t = { s with wv := s.h, roundCtr := 0, phase := .rounding }.complete .ok) := by
  unfold execWvload at h
  split at h
  · exact .inl ⟨‹_›, raise_eq_next.1 h⟩
  · exact .inr ⟨‹_›, finish_eq_next.1 h⟩

/-- ROUND N (R281). -/
theorem execRound_cases {n : BitVec 7} {s t : State} (h : execRound n s = .next t) :
    ((n = 0 ∨ 64 < n.toNat) ∧ t = s.complete .illegal) ∨
    (¬ (n = 0 ∨ 64 < n.toNat) ∧ (s.phase ≠ .rounding ∨ 64 < s.roundCtr.toNat + n.toNat) ∧ t = s.complete .sequence) ∨
    (¬ (n = 0 ∨ 64 < n.toNat) ∧ s.phase = .rounding ∧ s.roundCtr.toNat + n.toNat ≤ 64 ∧
      t = { s with
        wv := rounds s.w s.roundCtr.toNat n.toNat s.wv
        roundCtr := BitVec.ofNat 32 (s.roundCtr.toNat + n.toNat) }.complete .ok) := by
  unfold execRound at h
  split at h
  · exact .inl ⟨‹_›, raise_eq_next.1 h⟩
  · split at h
    · exact .inr (.inl ⟨‹_›, ‹_›, raise_eq_next.1 h⟩)
    · rename_i h1 h2
      simp only [not_or, not_not, not_lt] at h2
      exact .inr (.inr ⟨h1, h2.1, h2.2, finish_eq_next.1 h⟩)

theorem execRound_of_legal {n : BitVec 7} {s : State} (h1 : 1 ≤ n.toNat) (h2 : n.toNat ≤ 64)
    (hp : s.phase = .rounding) (hr : s.roundCtr.toNat + n.toNat ≤ 64) :
    execRound n s = finish { s with
      wv := rounds s.w s.roundCtr.toNat n.toNat s.wv
      roundCtr := BitVec.ofNat 32 (s.roundCtr.toNat + n.toNat) } := by
  unfold execRound
  rw [if_neg, if_neg]
  · simp [hp]
    omega
  · rintro (rfl | h)
    · simp at h1
    · omega

/-- FOLD (R282). -/
theorem execFold_cases {s t : State} (h : execFold s = .next t) :
    ((s.phase ≠ .rounding ∨ s.roundCtr ≠ 64) ∧ t = s.complete .sequence) ∨
    (s.phase = .rounding ∧ s.roundCtr = 64 ∧
      t = { s with h := foldWords s.h s.wv, blkIdx := s.blkIdx + 1, roundCtr := 0, phase := .empty }.complete .ok) := by
  unfold execFold at h
  split at h
  · exact .inl ⟨‹_›, raise_eq_next.1 h⟩
  · rename_i hc
    simp only [not_or, not_not] at hc
    exact .inr ⟨hc.1, hc.2, finish_eq_next.1 h⟩

/-- COMPRESS (R283), when it gives a next state. -/
theorem execCompress_cases {s t : State} (h : execCompress s = .next t) :
    (s.noBlock = true ∧ t = s.complete .sequence) ∨
    (s.noBlock = false ∧ ∃ b, s.memRead (64 * s.blkIdx.toNat) 64 = some b ∧
      t = { s.withBlock b with blkIdx := s.blkIdx + 1, roundCtr := 0, phase := .empty }.complete .ok) := by
  unfold execCompress at h
  split at h
  · exact .inl ⟨‹_›, raise_eq_next.1 h⟩
  · split at h
    · cases h
    · rename_i u hu
      obtain ⟨b, hb, rfl⟩ := State.compressAt_eq_some hu
      exact .inr ⟨by simpa using ‹¬ s.noBlock = true›, b, hb, finish_eq_next.1 h⟩

theorem execCompress_of_memRead {s : State} {b : Vector Byte 64} (hn : s.noBlock = false)
    (hb : s.memRead (64 * s.blkIdx.toNat) 64 = some b) :
    execCompress s = finish { s.withBlock b with blkIdx := s.blkIdx + 1, roundCtr := 0, phase := .empty } := by
  unfold execCompress
  simp only [hn, State.compressAt_of_memRead hb]
  rfl

/-- The state after a DIGEST that fits (R311). -/
def State.digestedState (s : State) : State :=
  { s.paddedState with
    h := digestWords s.cfg.lenMode s.message
    hex := hexDigest (digestWords s.cfg.lenMode s.message)
    w := schedule (blockOf (paddedMessage s.cfg.lenMode s.message) (nblkOf s.msgLen.toNat - 1))
    wv := rounds (schedule (blockOf (paddedMessage s.cfg.lenMode s.message) (nblkOf s.msgLen.toNat - 1))) 0 64
      (chain (paddedMessage s.cfg.lenMode s.message) (nblkOf s.msgLen.toNat - 1))
    blkIdx := s.paddedState.nblk, roundCtr := 0, phase := .empty }

/-- DIGEST (R311). -/
theorem execDigest_eq (s : State) :
    execDigest s = if s.cfg.msgCap < padLen s.msgLen.toNat then raise .capacity s else finish s.digestedState := by
  unfold execDigest
  split
  · rfl
  · have hle : padLen s.msgLen.toNat ≤ s.cfg.msgCap := by omega
    obtain ⟨n, hn⟩ : ∃ n, nblkOf s.msgLen.toNat = n + 1 := ⟨nblkOf s.msgLen.toNat - 1, by
      have := nblkOf_pos s.msgLen.toNat
      omega⟩
    have hb : ∀ i, i < 0 + (n + 1) →
        s.paddedState.loadIv.memRead (64 * i) 64 = some (blockOf (paddedMessage s.cfg.lenMode s.message) i) := by
      intro i hi
      rw [← State.paddedState_memRead s i (by omega) hle]
      rfl
    rw [State.padInPlace_of_le hle]
    dsimp only
    rw [hn, State.compressFrom_chain n 0 hb rfl]
    simp only [Nat.zero_add]
    unfold State.digestedState digestWords
    rw [State.message_length, hn]
    rfl

/-- What every command has in common (R222, R224): a next state is the completion of `s` itself with an error code, or the
completion of a new state with code 0, which has the parameters, the turns, the answers and the draws of `s`. -/
theorem exec_cases {i : Instr} {s t : State} (h : exec i s = .next t) :
    (∃ c, c ≠ .ok ∧ t = s.complete c) ∨
    (∃ u : State, t = u.complete .ok ∧ u.cfg = s.cfg ∧ u.turns = s.turns ∧ u.replies = s.replies ∧ u.draws = s.draws ∧
      u.msgEpoch = s.msgEpoch) := by
  cases i <;> simp only [exec] at h
  case nop => exact .inr ⟨s, finish_eq_next.1 h, rfl, rfl, rfl, rfl, rfl⟩
  case init => exact .inr ⟨s.loadIv, finish_eq_next.1 h, rfl, rfl, rfl, rfl, rfl⟩
  case pad =>
    rw [execPad_eq] at h
    split at h
    · exact .inl ⟨.capacity, by simp, raise_eq_next.1 h⟩
    · exact .inr ⟨s.paddedState, finish_eq_next.1 h, rfl, rfl, rfl, rfl, rfl⟩
  case sched =>
    rcases execSched_cases h with ⟨_, h⟩ | ⟨_, b, _, h⟩
    · exact .inl ⟨_, by simp, h⟩
    · exact .inr ⟨_, h, rfl, rfl, rfl, rfl, rfl⟩
  case wvload =>
    rcases execWvload_cases h with ⟨_, h⟩ | ⟨_, h⟩
    · exact .inl ⟨_, by simp, h⟩
    · exact .inr ⟨_, h, rfl, rfl, rfl, rfl, rfl⟩
  case round n =>
    rcases execRound_cases h with ⟨_, h⟩ | ⟨_, _, h⟩ | ⟨_, _, _, h⟩
    · exact .inl ⟨_, by simp, h⟩
    · exact .inl ⟨_, by simp, h⟩
    · exact .inr ⟨_, h, rfl, rfl, rfl, rfl, rfl⟩
  case fold =>
    rcases execFold_cases h with ⟨_, h⟩ | ⟨_, _, h⟩
    · exact .inl ⟨_, by simp, h⟩
    · exact .inr ⟨_, h, rfl, rfl, rfl, rfl, rfl⟩
  case compress =>
    rcases execCompress_cases h with ⟨_, h⟩ | ⟨_, b, _, h⟩
    · exact .inl ⟨_, by simp, h⟩
    · exact .inr ⟨_, h, rfl, rfl, rfl, rfl, rfl⟩
  case format => exact .inr ⟨_, finish_eq_next.1 h, rfl, rfl, rfl, rfl, rfl⟩
  case digest =>
    rw [execDigest_eq] at h
    split at h
    · exact .inl ⟨.capacity, by simp, raise_eq_next.1 h⟩
    · exact .inr ⟨s.digestedState, finish_eq_next.1 h, rfl, rfl, rfl, rfl, rfl⟩
  case sreset => exact .inr ⟨_, finish_eq_next.1 h, rfl, rfl, rfl, rfl, rfl⟩

end Sys2Proof.Machine
end

