-- ==== Sys2Proof/Laws/PerInstr.lean ====
section
/-! SUPPORT. Per command, as syntax: the word of a command against the mask and match of its row in
spec/opcode_table.json (30_encoding.md R145). -/

namespace Sys2Proof.Laws

/-- The fixed bits of the command's row: all 32, but for ROUND, whose bits 14:8 are N. -/
def rowMask : Instr → Word
  | .nop => 0xFFFFFFFF
  | .init => 0xFFFFFFFF
  | .pad => 0xFFFFFFFF
  | .sched => 0xFFFFFFFF
  | .wvload => 0xFFFFFFFF
  | .round _ => 0xFFFF80FF
  | .fold => 0xFFFFFFFF
  | .compress => 0xFFFFFFFF
  | .format => 0xFFFFFFFF
  | .digest => 0xFFFFFFFF
  | .sreset => 0xFFFFFFFF

/-- What the fixed bits of the command's row are. -/
def rowMatch : Instr → Word
  | .nop => 0x00000000
  | .init => 0x00000001
  | .pad => 0x00000002
  | .sched => 0x00000003
  | .wvload => 0x00000004
  | .round _ => 0x00000005
  | .fold => 0x00000006
  | .compress => 0x00000007
  | .format => 0x00000008
  | .digest => 0x00000009
  | .sreset => 0x0000000A

/-- A command's word has the fixed bits of its row, and its reserved bits 31:15 and 7:4 are 0 (R143). -/
def FixedBits.Statement (i : Instr) : Prop :=
  encode i &&& rowMask i = rowMatch i ∧ fieldRes1 (encode i) = 0 ∧ fieldRes0 (encode i) = 0

theorem FixedBits.nop : FixedBits.Statement .nop := by unfold FixedBits.Statement; decide
theorem FixedBits.init : FixedBits.Statement .init := by unfold FixedBits.Statement; decide
theorem FixedBits.pad : FixedBits.Statement .pad := by unfold FixedBits.Statement; decide
theorem FixedBits.sched : FixedBits.Statement .sched := by unfold FixedBits.Statement; decide
theorem FixedBits.wvload : FixedBits.Statement .wvload := by unfold FixedBits.Statement; decide
theorem FixedBits.round (n : BitVec 7) : FixedBits.Statement (.round n) := by
  unfold FixedBits.Statement
  revert n
  decide
theorem FixedBits.fold : FixedBits.Statement .fold := by unfold FixedBits.Statement; decide
theorem FixedBits.compress : FixedBits.Statement .compress := by unfold FixedBits.Statement; decide
theorem FixedBits.format : FixedBits.Statement .format := by unfold FixedBits.Statement; decide
theorem FixedBits.digest : FixedBits.Statement .digest := by unfold FixedBits.Statement; decide
theorem FixedBits.sreset : FixedBits.Statement .sreset := by unfold FixedBits.Statement; decide

end Sys2Proof.Laws
end

