-- ==== Sys2Proof/Laws/Step.lean ====
section
/-! SUPPORT. What a turn and a step can do, said once; runs; the pieces of the invariant. -/

namespace Sys2Proof.Machine

/-- Everything the engine's turn can do: nothing when idle; else the command of PENDING, or ILLEGAL. -/
theorem State.engineTurn_cases {s t : State} (h : s.engineTurn = .next t) :
    (s.busy = false ∧ t = s) ∨
    (s.busy = true ∧ ∃ i, decode s.pending = .ok i ∧ exec i s = .next t) ∨
    (s.busy = true ∧ (∃ e, decode s.pending = .error e) ∧ t = s.complete .illegal) := by
  unfold State.engineTurn at h
  split at h
  · rename_i hb
    unfold State.completion at h
    split at h
    · rename_i i hi
      exact .inr (.inl ⟨hb, i, hi, h⟩)
    · rename_i e he
      exact .inr (.inr ⟨hb, ⟨e, he⟩, raise_eq_next.1 h⟩)
  · rename_i hb
    refine .inl ⟨by simpa using hb, ?_⟩
    cases h
    rfl

/-- After the engine's turn no command is in flight. -/
theorem State.engineTurn_busy {s t : State} (h : s.engineTurn = .next t) : t.busy = false := by
  rcases State.engineTurn_cases h with ⟨hb, rfl⟩ | ⟨-, i, -, h⟩ | ⟨-, -, rfl⟩
  · exact hb
  · rcases exec_cases h with ⟨c, -, rfl⟩ | ⟨u, rfl, -⟩ <;> rfl
  · rfl

/-- A turn does not change the coming turns. -/
theorem State.take_turns {s t : State} {x : Turn} (h : s.take x = .next t) : t.turns = s.turns := by
  cases x with
  | host x =>
    cases h
    exact (s.serve_frame x).2.1
  | engine =>
    rcases State.engineTurn_cases h with ⟨-, rfl⟩ | ⟨-, i, -, h⟩ | ⟨-, -, rfl⟩
    · rfl
    · rcases exec_cases h with ⟨c, -, rfl⟩ | ⟨u, rfl, -, e, -⟩
      · rfl
      · exact e
    · rfl
  | reset =>
    cases h
    rfl

/-- Everything a step can do. -/
theorem step_cases {s t : State} (h : step s = .next t) :
    (s.turns = [] ∧ s.engineTurn = .next t) ∨
    (∃ x rest, s.turns = x :: rest ∧ State.take { s with turns := rest } x = .next t) := by
  unfold step at h
  split at h
  · exact .inl ⟨‹_›, h⟩
  · exact .inr ⟨_, _, ‹_›, h⟩

/-- A step adds at most one answer. -/
theorem step_replies {s t : State} (h : step s = .next t) :
    t.replies = s.replies ∨ ∃ x rest r, s.turns = .host x :: rest ∧ t.replies = r :: s.replies := by
  have eng : ∀ {u : State}, u.engineTurn = .next t → t.replies = u.replies := by
    intro u hu
    rcases State.engineTurn_cases hu with ⟨-, rfl⟩ | ⟨-, i, -, hu⟩ | ⟨-, -, rfl⟩
    · rfl
    · rcases exec_cases hu with ⟨c, -, rfl⟩ | ⟨v, rfl, -, -, e, -⟩
      · rfl
      · exact e
    · rfl
  rcases step_cases h with ⟨-, h⟩ | ⟨x, rest, hx, h⟩
  · exact .inl (eng h)
  · cases x with
    | host x =>
      obtain ⟨r, hr⟩ := State.serve_replies { s with turns := rest } x
      cases h
      exact .inr ⟨x, rest, _, hx, hr⟩
    | engine => exact .inl (eng (u := { s with turns := rest }) h)
    | reset =>
      cases h
      exact .inl rfl

theorem runSteps_succ {n : Nat} {s t : State} (h : step s = .next t) : runSteps (n + 1) s = runSteps n t := by
  rw [runSteps, h]

/-- Runs compose. -/
theorem runSteps_add {m n : Nat} {s t : State} (h : runSteps m s = .next t) : runSteps (m + n) s = runSteps n t := by
  induction m generalizing s with
  | zero =>
    cases h
    rw [Nat.zero_add]
  | succ m ih =>
    rw [runSteps] at h
    split at h
    · rename_i u hu
      rw [show m + 1 + n = m + n + 1 by omega, runSteps_succ hu, ih h]
    · cases h
    · cases h

/-- A run only adds answers. -/
theorem runSteps_replies {n : Nat} {s t : State} (h : runSteps n s = .next t) : ∃ rs, t.replies = rs ++ s.replies := by
  induction n generalizing s with
  | zero =>
    cases h
    exact ⟨[], rfl⟩
  | succ n ih =>
    rw [runSteps] at h
    split at h
    · rename_i u hu
      obtain ⟨rs, e⟩ := ih h
      rcases step_replies hu with e' | ⟨x, rest, r, -, e'⟩
      · exact ⟨rs, by rw [e, e']⟩
      · exact ⟨rs ++ [r], by rw [e, e']; simp⟩
    · cases h
    · cases h

/-- The reads of a run are those of the answers it added. -/
theorem State.outcomeReads_of_replies {s t : State} {rs : List Reply} (h : t.replies = rs ++ s.replies) :
    s.outcomeReads t = rs.reverse.filterMap Reply.readValue := by
  unfold State.outcomeReads
  rw [h]
  simp

theorem runCommands_cons {i : Instr} {s t : State} {is : List Instr} (h : exec i s = .next t) :
    runCommands (i :: is) s = runCommands is t := by
  rw [runCommands, h]

theorem runCommands_append (xs ys : List Instr) (s : State) :
    runCommands (xs ++ ys) s = (runCommands xs s).bind (runCommands ys) := by
  induction xs generalizing s with
  | nil => rfl
  | cons x xs ih =>
    simp only [List.cons_append, runCommands]
    cases exec x s <;> simp [ih]

/-! ## Pieces of the invariant -/

/-- The turns are no part of the invariant. -/
theorem State.Inv.with_turns {s : State} (h : s.Inv) (ts : List Turn) : State.Inv { s with turns := ts } :=
  ⟨h.1, h.2, h.3, h.4, h.5, h.6, h.7, h.8, h.9⟩

/-- Completion keeps the invariant. -/
theorem State.Inv.complete {s : State} (h : s.Inv) (c : ResultCode) : (s.complete c).Inv :=
  ⟨h.1, h.2, h.3, h.4, h.5, h.6, h.7, h.8, by simp⟩

/-- The answers are no part of the invariant. -/
theorem State.Inv.answer {s : State} (h : s.Inv) (b : Bool) (r : Response) : (s.answer b r).Inv :=
  ⟨h.1, h.2, h.3, h.4, h.5, h.6, h.7, h.8, h.9⟩

/-- The next Block lies inside the buffer (R121). -/
theorem State.Inv.block_inside {s : State} (h : s.Inv) (hn : s.noBlock = false) :
    64 * s.blkIdx.toNat + 64 ≤ s.cfg.msgCap := by
  have hnb : ¬ (s.noBlock = true) := by simp [hn]
  rw [State.noBlock_iff] at hnb
  simp only [not_or, Bool.not_eq_false, not_le] at hnb
  obtain ⟨h1, h2, h3⟩ := h.padded_nblk hnb.1
  omega

/-- The number of Blocks of a Message that fits is a word. -/
theorem nblkOf_toNat {c : Config} {l : Nat} (hc : c.Legal) (h : padLen l ≤ c.msgCap) :
    (BitVec.ofNat 32 (nblkOf l)).toNat = nblkOf l := by
  have := padLen_eq l
  have := hc.2.2.1
  rw [BitVec.toNat_ofNat]
  omega

end Sys2Proof.Machine
end

