-- ==== Sys2Proof/Tests/Slice0.lean ====
section
/-! SUPPORT. Tests of the model: each one step or one function, its expected value from spec/95_test_vectors.md or by hand
from a rule; and for every statement with hypotheses a witness that they can be met together. -/

namespace Sys2Proof.Tests

open Sys2Proof.Machine

/-! ## Helpers -/

/-- Run a command, keeping the state where it stops. -/
def after (i : Instr) (s : State) : State := (nextState (exec i s)).getD s

/-- The buffer holds `m`, and MSG_LEN its length. -/
def loaded (m : List Byte) : State :=
  { State.reset with mem := Memory.writeBytes [] 0 m, msgLen := BitVec.ofNat 32 m.length }

/-- "abc" (95_test_vectors.md). -/
def abc : State := loaded [0x61, 0x62, 0x63]

/-- "abc" and its padding in the buffer, PADDED = 1, NBLK = 1 (2.2). -/
def abcPadded : State :=
  { State.reset with
    mem := Memory.writeBytes [] 0 ([0x61, 0x62, 0x63, 0x80] ++ List.replicate 59 0 ++ [0x18])
    msgLen := 3, nblk := 1, padded := true }

/-- "abc" padded, in a phase, with `r` rounds done. -/
def abcIn (p : CPhase) (r : Word) : State := { abcPadded with phase := p, roundCtr := r }

/-- The row t = 62 of the trace of section 2.4. -/
def row62 : Vector Word 8 :=
  #v[0xd39a2165, 0x04d24d6c, 0xb85e2ce9, 0xb6ae8fff, 0xfb121210, 0x948d25b6, 0x961f4894, 0xb21bad3d]

/-- The row t = 63 of the trace of section 2.4, the WV of P1's end state. -/
def row63 : Vector Word 8 :=
  #v[0x506e3058, 0xd39a2165, 0x04d24d6c, 0xb85e2ce9, 0x5ef50f24, 0xfb121210, 0x948d25b6, 0x961f4894]

/-- A machine of another base and the least buffer, in FULL64. -/
def tinyConfig : Config := { msgCap := 64, lenMode := .full64, base := 0x10000 }

/-- A command in flight. -/
def running (v : Word) : State := { State.reset with pending := v, busy := true }

/-! ## Well-formedness: each ill-formed command is refused (R142) -/

theorem test_illformed_round_0 : (Instr.round 0).wellFormed = false := by decide
theorem test_illformed_round_65 : (Instr.round 65).wellFormed = false := by decide
theorem test_illformed_round_127 : (Instr.round 127).wellFormed = false := by decide
theorem test_wellformed_bounds : (Instr.round 1).wellFormed = true ∧ (Instr.round 64).wellFormed = true := by decide

/-! ## Decoding: words written out bit by bit from 30_encoding.md R140, R145 and section 2.7 -/

theorem test_decode_nop : decode 0b00000000000000000000000000000000 = .ok .nop := by decide
theorem test_decode_init : decode 0b00000000000000000000000000000001 = .ok .init := by decide
theorem test_decode_pad : decode 0b00000000000000000000000000000010 = .ok .pad := by decide
theorem test_decode_sched : decode 0b00000000000000000000000000000011 = .ok .sched := by decide
theorem test_decode_wvload : decode 0b00000000000000000000000000000100 = .ok .wvload := by decide
theorem test_decode_round_1 : decode 0b00000000000000000000000100000101 = .ok (.round 1) := by decide
theorem test_decode_round_62 : decode 0b00000000000000000011111000000101 = .ok (.round 62) := by decide
theorem test_decode_fold : decode 0b00000000000000000000000000000110 = .ok .fold := by decide
theorem test_decode_compress : decode 0b00000000000000000000000000000111 = .ok .compress := by decide
theorem test_decode_format : decode 0b00000000000000000000000000001000 = .ok .format := by decide
theorem test_decode_digest : decode 0b00000000000000000000000000001001 = .ok .digest := by decide
theorem test_decode_sreset : decode 0b00000000000000000000000000001010 = .ok .sreset := by decide

theorem test_decode_illegal :
    decode 0x00000005 = .error .roundCount ∧ decode 0x00007F05 = .error .roundCount ∧
      decode 0x0000000F = .error .reservedOp ∧ decode 0x00000010 = .error .reservedBits ∧
      decode 0x00008000 = .error .reservedBits ∧ decode 0x00010000 = .error .reservedBits ∧
      decode 0xFFFFFFFF = .error .reservedBits := by decide

theorem test_table_word : decodeTableWord 32 0x00004005 = some (.round 64) ∧ decodeTableWord 32 0x00004105 = none := by
  decide

/-! ## The datapath: section 2.1, 2.2, 2.6 -/

theorem test_sigmas :
    smallSigma0 0x12345678 = 0xe7fce6ee ∧ smallSigma1 0x12345678 = 0xa1f78649 ∧
      bigSigma0 0x12345678 = 0x66146474 ∧ bigSigma1 0x12345678 = 0x3561abda ∧ rotr 0x12345678 7 = 0xf02468ac := by decide

theorem test_ch_maj :
    ch 0x510e527f 0x9b05688c 0x1f83d9ab = 0x1f85c98c ∧ maj 0x6a09e667 0xbb67ae85 0x3c6ef372 = 0x3a6fe667 := by decide

theorem test_pad_55 : padBytes .ref32 55 = [0x80, 0, 0, 0, 0, 0, 0, 0x01, 0xb8] := by decide

theorem test_length_field_boundary :
    be64bytes (lenField .ref32 0x20000000) = [0, 0, 0, 0, 0, 0, 0, 0] ∧
      be64bytes (lenField .full64 0x20000000) = [0, 0, 0, 1, 0, 0, 0, 0] := by decide

/-! ## The commands: sections 2.2 to 2.8 -/

/-- 2.8, first row. -/
theorem test_nop : (after .nop State.reset).statusWord = 0x00000002 := by decide

/-- R227 on a state in the middle of a compression. -/
theorem test_init :
    (after .init { abcIn .rounding 5 with h := row63 }).h[7] = 0x5be0cd19 ∧
      (after .init (abcIn .rounding 5)).statusWord = 0x00000042 := by decide +kernel

/-- 2.2, the row L = 3. -/
theorem test_pad_abc : (after .pad abc).mem = abcPadded.mem ∧ (after .pad abc).statusWord = 0x00000042 := by
  decide +kernel

/-- 2.2, the rows 4087 and 4088. -/
theorem test_pad_capacity :
    exec .pad { State.reset with msgLen := 4088 } = .next { State.reset with msgLen := 4088, err := .capacity, done := true } ∧
      (after .pad { State.reset with msgLen := 4087 }).nblk = 64 := ⟨rfl, by decide +kernel⟩

/-- 2.3. -/
theorem test_sched_abc :
    (after .sched abcPadded).w[0] = 0x61626380 ∧ (after .sched abcPadded).w[18] = 0x7da86405 ∧
      (after .sched abcPadded).w[63] = 0x12b1edeb ∧ (after .sched abcPadded).statusWord = 0x000000C2 := by decide +kernel

/-- 2.8: SCHED after reset. -/
theorem test_sched_sequence : (after .sched State.reset).statusWord = 0x0000000E := by decide

/-- P2: WVLOAD in phase SCHEDULED. -/
theorem test_wvload :
    (after .wvload (abcIn .scheduled 0)).wv = iv ∧ (after .wvload (abcIn .scheduled 0)).statusWord = 0x00000142 := by
  decide

/-- 2.8: WVLOAD in phase EMPTY. -/
theorem test_wvload_sequence : (after .wvload (abcIn .empty 0)).statusWord = 0x0000004E := by decide

/-- 2.4: the rows 0 and 63, each from the row before it; only the round's own schedule word is needed. -/
theorem test_round_first_last :
    (after (.round 1) { abcIn .rounding 0 with wv := iv, w := (Vector.replicate 64 0).set 0 0x61626380 }).wv =
        #v[0x5d6aebcd, 0x6a09e667, 0xbb67ae85, 0x3c6ef372, 0xfa2a4622, 0x510e527f, 0x9b05688c, 0x1f83d9ab] ∧
      (after (.round 1) { abcIn .rounding 63 with wv := row62, w := (Vector.replicate 64 0).set 63 0x12b1edeb }).wv =
        row63 := by decide +kernel

/-- 2.8: ROUND 2 at ROUNDCTR = 63. -/
theorem test_round_sequence : (after (.round 2) (abcIn .rounding 63)).statusWord = 0x0000014E := by decide

/-- 2.5, first row. -/
theorem test_fold :
    (after .fold { abcIn .rounding 64 with wv := row63 }).h =
        #v[0xba7816bf, 0x8f01cfea, 0x414140de, 0x5dae2223, 0xb00361a3, 0x96177a9c, 0xb410ff61, 0xf20015ad] ∧
      (after .fold { abcIn .rounding 64 with wv := row63 }).statusWord = 0x00000042 := by decide +kernel

/-- 2.8: FOLD at ROUNDCTR = 63. -/
theorem test_fold_sequence : (after .fold (abcIn .rounding 63)).statusWord = 0x0000014E := by decide

/-- 2.5, first row. -/
theorem test_compress_abc :
    (after .compress abcPadded).wv = row63 ∧ (after .compress abcPadded).h[0] = 0xba7816bf := by decide +kernel

/-- 2.5, last row, and P6. -/
theorem test_compress_zero :
    (after .compress { abcPadded with h := Vector.replicate 8 0 }).h[7] = 0xaec6ce4e := by decide +kernel

/-- 2.6: the bytes of "6a09" and the last, "9". -/
theorem test_format_iv :
    (after .format State.reset).hex.toList.take 4 = [0x36, 0x61, 0x30, 0x39] ∧
      (after .format State.reset).hex[63] = 0x39 := by decide +kernel

/-- V2: "ba78" and "d". -/
theorem test_digest_abc :
    (after .digest abc).hex.toList.take 4 = [0x62, 0x61, 0x37, 0x38] ∧ (after .digest abc).hex[63] = 0x64 ∧
      (after .digest abc).h[7] = 0xf20015ad := by decide +kernel

/-- 2.8: DIGEST with MSG_LEN = 4088. -/
theorem test_digest_capacity : (after .digest { State.reset with msgLen := 4088 }).statusWord = 0x0000000A := by
  decide +kernel

/-- P5: SRESET keeps the buffer and leaves DONE. -/
theorem test_sreset :
    (after .sreset { abcIn .rounding 5 with doneIe := true }).statusWord = 0x00000002 ∧
      (after .sreset { abcIn .rounding 5 with doneIe := true }).irq = false ∧
      (after .sreset (abcIn .rounding 5)).mem = abcPadded.mem := by decide +kernel

/-! ## The bus: section 2.9 -/

/-- Reads of "abc" padded: the lanes of MSG, ID, a reserved offset, a misaligned word, 16 bits, outside the window. -/
theorem test_reads :
    (serveAll abcPadded [.read 0x1000 .word, .read 0x1001 .byte, .read 0x020 .word, .read 0x024 .word, .read 0x1001 .word,
      .read 0x1002 .half, .read 0x2000 .byte]).replies.map (·.response) =
      [.readError 0, .readError 0, .readError 0, .readError 0, .readOk 0x53484132, .readOk 0x62, .readOk 0x61626380] := by
  decide +kernel

/-- Writes that are bus errors: a read-only register, a byte to a word register, a byte to HEX. -/
theorem test_write_errors :
    (serveAll State.reset [.write 0x010 .word 0xFF, .write 0x004 .byte 0x22, .write 0x200 .byte 0x41]).replies.map
      (·.response) = [.writeError, .writeError, .writeError] := by decide +kernel

/-- P4: while BUSY a write to MSG_LEN is dropped and sets OVR; the write to IRQ_EN is performed. -/
theorem test_overrun :
    (serveAll (running 9) [.write 0x00C .word 5, .write 0x008 .word 1]).statusWord = 0x00000021 ∧
      (serveAll (running 9) [.write 0x00C .word 5, .write 0x008 .word 1]).doneIe = true ∧
      (serveAll (running 9) [.write 0x00C .word 5]).msgLen = 0 := by decide +kernel

/-- 2.9, last row: `ack`. -/
theorem test_ack :
    (State.serve { abcPadded with done := true, ovr := true } (.write 0x004 .word 0x22)).statusWord = 0x00000040 := by
  decide +kernel

/-- The host's step is one step of the machine, and a word the host writes is run by the next engine turn (P4's first
line). -/
theorem test_step_illegal :
    (nextState (step { running 0xB with turns := [.engine] })).map State.statusWord = some 0x00000006 := by decide

/-- `withFetchWord`: the next step runs the word. -/
theorem test_fetch_word : nextState (step (State.reset.withFetchWord 32 0x00000008)) ≠ none ∧
    ((nextState (step (State.reset.withFetchWord 32 0x00000008))).map fun s => s.hex[0]) = some 0x36 := by decide +kernel

/-- The notation of R150: `run` assembles a write to CTRL and a wait; an illegal count does not assemble. -/
theorem test_assembler :
    cmd Config.reference (.round 62) = some (.host (.write 0 .word 0x00003E05)) ∧
      cmd Config.reference (.round 65) = none := by decide

/-! ## Witnesses: the hypotheses of each statement, met together -/

theorem witness_reset_inv : State.reset.Inv :=
  ⟨by decide, by decide, by decide, by decide, by decide, by decide, by decide, by decide, by decide⟩

theorem witness_abcIn_inv (p : CPhase) (r : Word) (h1 : p ≠ .rounding → r = 0) (h2 : r ≤ 64) : (abcIn p r).Inv where
  legal := by show Config.reference.Legal; decide
  mem := by show abcPadded.MemInv; decide +kernel
  blk_le := by show abcPadded.blkIdx ≤ abcPadded.nblk; decide
  round_zero := h1
  round_le := h2
  phase_padded := fun _ => by show abcPadded.padded = true ∧ abcPadded.blkIdx < abcPadded.nblk; decide
  padded_nblk := fun _ => by
    show abcPadded.nblk.toNat = nblkOf abcPadded.msgLen.toNat ∧ 1 ≤ abcPadded.nblk ∧
      nblkOf abcPadded.msgLen.toNat * 64 ≤ abcPadded.cfg.msgCap
    decide
  unpadded := fun h => absurd h (by show abcPadded.padded ≠ false; decide)
  busy_done := fun h => absurd h (by show abcPadded.busy ≠ true; decide)

theorem witness_running_inv (v : Word) : (running v).Inv :=
  ⟨witness_reset_inv.legal, witness_reset_inv.mem, witness_reset_inv.blk_le, witness_reset_inv.round_zero,
    witness_reset_inv.round_le, witness_reset_inv.phase_padded, witness_reset_inv.padded_nblk,
    witness_reset_inv.unpadded, fun _ => rfl⟩

/-- A padded Message of the greatest length: 64 Blocks, BLKIDX at the last or past it. -/
def full (blk : Word) : State := { State.reset with msgLen := 4087, nblk := 64, blkIdx := blk, padded := true }

theorem witness_full_inv : (full 63).Inv ∧ (full 64).Inv :=
  ⟨⟨by decide, by decide, by decide, by decide, by decide, by decide, by decide +kernel, by decide, by decide⟩,
    ⟨by decide, by decide, by decide, by decide, by decide, by decide, by decide +kernel, by decide, by decide⟩⟩

theorem witness_DecodeEncodeRoundTrip :
    (Instr.round 1).wellFormed = true ∧ (Instr.round 64).wellFormed = true ∧ Instr.sreset.wellFormed = true := by decide

/-- Both sides of each equivalence, at the ends of the range of N. -/
theorem witness_DecodeIsTheRule :
    decode 0x00000105 = .ok (.round 1) ∧ decode 0x00004005 = .ok (.round 64) ∧ decode 0x0000000A = .ok .sreset ∧
      (0x00000105 : Word).toNat / 2 ^ 8 % 2 ^ 7 = 1 ∧ (0x00004005 : Word).toNat / 2 ^ 8 % 2 ^ 7 = 64 := by decide

theorem witness_StepRunsTheDecodedCommand :
    ({ running 8 with turns := [.engine] } : State).busy = true ∧ decode (running 8).pending = .ok .format ∧
      (running 8).turns = [] ∧ decodeTableWord 32 0x00000105 = some (.round 1) := by decide

theorem witness_StepTakesTheFirstTurn :
    ({ State.reset with turns := [.host (.read 0x020 .word)] } : State).turns = .host (.read 0x020 .word) :: [] ∧
      ({ State.reset with turns := [.reset] } : State).turns = .reset :: [] ∧
      ({ State.reset with turns := [.engine] } : State).turns = .engine :: [] ∧
      State.reset.busy = false ∧ State.reset.turns = [] := by decide

theorem witness_IssueStoresTheWord : State.reset.busy = false ∧ (running 9).busy = true := by decide

theorem witness_ErrorsChangeNothing :
    (∃ t, exec .fold State.reset = .next t ∧ t.err ≠ .ok) ∧
      (∃ t, (running 0xB).completion = .next t ∧ t.err ≠ .ok) := ⟨⟨_, rfl, by decide⟩, ⟨_, rfl, by decide⟩⟩

/-- Each way a word can be illegal, at the ends of the ranges, and a word of none of them. -/
theorem witness_IllegalWordsRecordIllegal :
    (running 0xB).CompletesNext ∧ ({ running 0xB with turns := [.engine, .reset] } : State).CompletesNext ∧ 0xB ≤ (0xB : Word).toNat % 16 ∧
      (0x00008000 : Word).toNat / 2 ^ 15 ≠ 0 ∧ (0x00000010 : Word).toNat / 2 ^ 4 % 2 ^ 4 ≠ 0 ∧
      (0x00000005 : Word).toNat / 2 ^ 8 % 2 ^ 7 = 0 ∧ 64 < (0x00004105 : Word).toNat / 2 ^ 8 % 2 ^ 7 ∧
      (0x00000102 : Word).toNat % 16 ≠ 5 ∧ (0x00000102 : Word).toNat / 2 ^ 8 % 2 ^ 7 ≠ 0 ∧
      (∃ t, step (running 0xB) = .next t ∧ t.err = .illegal) ∧ (∃ t, step (running 0xA) = .next t ∧ t.err = .ok) :=
  ⟨by decide, by decide, by decide, by decide, by decide, by decide, by decide, by decide, by decide, ⟨_, rfl, by decide⟩,
    ⟨_, rfl, by decide⟩⟩

theorem witness_CapacityExactlyWhenItDoesNotFit :
    Config.reference.Legal ∧ Config.reference.msgCap - 9 < (4088 : Word).toNat ∧
      ¬ Config.reference.msgCap - 9 < (4087 : Word).toNat ∧
      (∃ t, exec .digest { State.reset with msgLen := 4088 } = .next t ∧ t.err = .capacity) :=
  ⟨by decide, by decide, by decide, ⟨_, rfl, by decide⟩⟩

/-- Each row of the table, and at the border of each the command that runs. -/
theorem witness_SequenceExactlyOutOfOrder :
    (full 64).nblk.toNat ≤ (full 64).blkIdx.toNat ∧ ¬ (full 63).nblk.toNat ≤ (full 63).blkIdx.toNat ∧
      State.reset.padded = false ∧ (abcIn .empty 0).phase = .empty ∧
      64 < (abcIn .rounding 63).roundCtr.toNat + (2 : BitVec 7).toNat ∧
      ¬ 64 < (abcIn .rounding 63).roundCtr.toNat + (1 : BitVec 7).toNat ∧
      (abcIn .rounding 63).roundCtr.toNat ≠ 64 ∧ (abcIn .rounding 64).roundCtr.toNat = 64 := by decide

theorem witness_ResetValues :
    ∃ t : State, (t = (abcIn .rounding 63).hardReset ∨ exec .sreset (abcIn .rounding 63) = .next t) ∧ t.h[0] = 0x6a09e667 :=
  ⟨_, .inl rfl, by decide⟩

/-- The least and the greatest buffer of R6. -/
theorem witness_ResetMeetsTheInvariant :
    tinyConfig.Legal ∧ ({ msgCap := 2 ^ 31, lenMode := .ref32, base := 0 } : Config).Legal ∧
      ¬ ({ msgCap := 4032, lenMode := .ref32, base := 0x1000 } : Config).Legal := by decide

theorem witness_EveryStepKeepsTheInvariant : (running 8).Inv ∧ ∃ t, step (running 8) = .next t :=
  ⟨witness_running_inv 8, ⟨_, rfl⟩⟩

theorem witness_NoStepStops : (full 63).Inv := witness_full_inv.1

theorem witness_ReachableStatesMeetTheInvariant :
    ∃ s : State, Reachable s ∧ s.busy = true :=
  ⟨_, .step _ _ (.turns _ [.host (.write 0 .word 9)] (.start Config.reference (by decide))) rfl, by decide⟩

theorem witness_EveryStepKeepsHexLowercase :
    State.reset.HexInv ∧ (∃ t, step (running 8) = .next t) ∧
      ({ State.reset with hex := Vector.replicate 64 0x66 } : State).HexInv :=
  ⟨.inl rfl, ⟨_, rfl⟩, .inr (by decide +kernel)⟩

/-- A state with a turn coming; a step that a read takes; a run in two parts. -/
theorem witness_EveryCommandCompletes :
    ({ running 8 with turns := [.host (.read 4 .word)] } : State).Inv ∧ State.reset.Inv ∧
      (∃ t, step { running 8 with turns := [.host (.read 0x040 .word)] } = .next t) ∧
      (∃ t, runSteps 1 { State.reset with turns := [.host (.read 0x024 .word)] } = .next t ∧ runSteps 1 t = .next t) :=
  ⟨(witness_running_inv 8).with_turns _, witness_reset_inv, ⟨_, rfl⟩, ⟨_, rfl, rfl⟩⟩

theorem witness_LatencyDoesNotChangeTheResult :
    (running 8).busy = true ∧
      (∀ x ∈ [BusTxn.read 0x200 .word, .write 0x00C .word 5, .write 0x024 .word 5],
        quietWhileBusy (running 8).cfg x = true) ∧
      ∃ t, (running 8).completion = .next t := ⟨by decide, by decide, ⟨_, rfl⟩⟩

theorem witness_NoStepChangesTheParameters : ∃ t, step (running 8) = .next t := ⟨_, rfl⟩

/-- Every command but PAD and DIGEST is under the first clause; a command of each other clause. -/
theorem witness_OnlyTheNamedCommandsWrite :
    (∃ t, exec .format (abcIn .rounding 63) = .next t) ∧ Instr.format ∉ [Instr.pad, .digest] ∧
      Instr.compress ∉ [Instr.format, .digest, .sreset] ∧ Instr.pad ∉ [Instr.init, .fold, .compress, .digest, .sreset] ∧
      Instr.round 64 ∉ [Instr.sched, .compress, .digest, .sreset] ∧
      Instr.fold ∉ [Instr.wvload, .compress, .digest, .sreset] ∧ (∀ n, Instr.fold ≠ .round n) ∧
      Instr.compress ∉ [Instr.pad, .digest, .sreset] ∧ Instr.sched ∉ [Instr.init, .pad, .fold, .compress, .digest, .sreset] ∧
      Instr.format ∈ [Instr.nop, .format] ∧
      2 < (abcIn .rounding 63).msgLen.toNat :=
  ⟨⟨_, rfl⟩, by decide, by decide, by decide, by decide, by decide, by decide, by decide, by decide, by decide, by decide⟩

/-- A completion of each kind, and a fall of irq by each of the events. -/
theorem witness_IrqIsRaisedByCompletionAndCleared :
    (∃ t, exec .nop { State.reset with doneIe := true } = .next t ∧ t.irq = true) ∧ (0x22 : Word).getLsbD 1 = true ∧
      (0xFFFFFFFE : Word).getLsbD 0 = false ∧ State.reset.busy = false ∧
      (∃ t, ({ running 0xB with doneIe := true } : State).completion = .next t ∧ t.irq = true) ∧
      (∃ t, ({ running 0xA with doneIe := true } : State).completion = .next t ∧ t.irq = false) ∧
      (∀ x ∈ [Turn.reset, .host (.write 0 .word 8), .host (.write 4 .word 2), .host (.write 8 .word 0)],
        ({ State.reset with doneIe := true, done := true, turns := [x] } : State).irq = true ∧
          (nextState (step { State.reset with doneIe := true, done := true, turns := [x] })).map State.irq = some false) :=
  ⟨⟨_, rfl, by decide⟩, by decide, by decide, by decide, ⟨_, rfl, by decide⟩, ⟨_, rfl, by decide⟩, by decide +kernel⟩

theorem witness_NopCompletes : State.reset.statusWord = 0 ∧ ∃ t, exec .nop State.reset = .next t :=
  ⟨by decide, ⟨_, rfl⟩⟩

theorem witness_PadPadsInPlace :
    Config.reference.msgCap < padLen (4088 : Word).toNat ∧ padLen (4087 : Word).toNat ≤ Config.reference.msgCap ∧
      tinyConfig.msgCap < padLen 56 ∧ padLen 55 ≤ tinyConfig.msgCap := by decide

theorem witness_SchedComputesTheSchedule :
    (full 63).Inv ∧ (full 63).padded = true ∧ (full 63).blkIdx.toNat < (full 63).nblk.toNat ∧
      (full 64).Inv ∧ (full 64).nblk.toNat ≤ (full 64).blkIdx.toNat :=
  ⟨witness_full_inv.1, by decide, by decide, witness_full_inv.2, by decide⟩

theorem witness_WvloadSeedsTheWorkingVariables :
    (abcIn .empty 0).phase = .empty ∧ (abcIn .scheduled 0).phase ≠ .empty ∧ (abcIn .rounding 64).phase ≠ .empty := by
  decide

theorem witness_RoundPerformsTheNextRounds :
    1 ≤ (1 : BitVec 7).toNat ∧ (64 : BitVec 7).toNat ≤ 64 ∧ (abcIn .rounding 0).phase = .rounding ∧
      (abcIn .rounding 0).roundCtr.toNat + (64 : BitVec 7).toNat ≤ 64 ∧
      (abcIn .rounding 63).roundCtr.toNat + (1 : BitVec 7).toNat ≤ 64 ∧
      64 < (abcIn .rounding 64).roundCtr.toNat + (1 : BitVec 7).toNat ∧ (abcIn .scheduled 0).phase ≠ .rounding := by
  decide

theorem witness_FoldAddsTheWorkingVariables :
    (abcIn .rounding 64).phase = .rounding ∧ (abcIn .rounding 64).roundCtr.toNat = 64 ∧ (abcIn .rounding 64).Inv ∧
      (abcIn .rounding 63).roundCtr.toNat ≠ 64 :=
  ⟨by decide, by decide, witness_abcIn_inv _ _ (by decide) (by decide), by decide⟩

theorem witness_CompressCompressesTheBlock :
    (abcIn .scheduled 0).Inv ∧ (abcIn .scheduled 0).padded = true ∧
      (abcIn .scheduled 0).blkIdx.toNat < (abcIn .scheduled 0).nblk.toNat ∧ (full 64).Inv ∧
      (full 64).nblk.toNat ≤ (full 64).blkIdx.toNat :=
  ⟨witness_abcIn_inv _ _ (by decide) (by decide), by decide, by decide, witness_full_inv.2, by decide⟩

theorem witness_DigestHashesTheMessage :
    padLen abc.msgLen.toNat ≤ abc.cfg.msgCap ∧ abc.cfg.msgCap < padLen (4088 : Word).toNat := by decide +kernel

theorem witness_RoundsSplit :
    (abcIn .rounding 0).phase = .rounding ∧ 1 ≤ (63 : BitVec 7).toNat ∧ 1 ≤ (1 : BitVec 7).toNat ∧
      (abcIn .rounding 0).roundCtr.toNat + (63 : BitVec 7).toNat + (1 : BitVec 7).toNat ≤ 64 := by decide

theorem witness_StepByStepEqualsCompress :
    (full 63).Inv ∧ (full 63).padded = true ∧ (full 63).blkIdx.toNat < (full 63).nblk.toNat :=
  ⟨witness_full_inv.1, by decide, by decide⟩

theorem witness_DigestEqualsTheCommandSequence :
    padLen (full 64).msgLen.toNat ≤ (full 64).cfg.msgCap ∧ (full 64).cfg.Legal := by decide

/-- Two states of different histories with the same Message. -/
theorem witness_DigestDependsOnTheMessageOnly :
    abc.message = (abcIn .rounding 63).message ∧ abc.cfg.lenMode = (abcIn .rounding 63).cfg.lenMode ∧
      padLen abc.msgLen.toNat ≤ abc.cfg.msgCap ∧
      padLen (abcIn .rounding 63).msgLen.toNat ≤ (abcIn .rounding 63).cfg.msgCap := by decide +kernel

/-- DIGEST gives a next state on every Message that fits. -/
theorem witness_digest_runs (s : State) (h : padLen s.msgLen.toNat ≤ s.cfg.msgCap) : ∃ t, exec .digest s = .next t :=
  ⟨s.digestedState.complete .ok, by
    rw [exec, execDigest_eq, if_neg (by omega)]
    rfl⟩

theorem witness_PadIsIdempotent :
    Memory.wf abc.mem ∧ padLen abc.msgLen.toNat ≤ abc.cfg.msgCap ∧ nextState (exec .pad abc) ≠ none := by decide +kernel

theorem witness_PaddedBufferIsThePaddedMessage :
    padLen abc.msgLen.toNat ≤ abc.cfg.msgCap ∧ abc.cfg.Legal ∧ nextState (exec .pad abc) ≠ none ∧
      (64 * 0 + 63 < 64 * (after .pad abc).nblk.toNat ∧ 0 < (after .pad abc).nblk.toNat) := by decide +kernel

theorem witness_PadLenIsTheLeastFit : 64 % 64 = 0 ∧ 55 + 9 ≤ 64 ∧ ¬ 56 + 9 ≤ 64 ∧ 56 + 9 ≤ 128 := by decide

/-- The first clause at the least and the greatest Z, and the byte positions of the field. -/
theorem witness_PaddingHasTheRuleShape :
    8 * (55 + 1 + 0) % 512 = 448 ∧ 8 * (56 + 1 + 63) % 512 = 448 ∧ 0 < 8 ∧ 7 < 8 := by decide

/-- Both sides of the equivalence, at its border. -/
theorem witness_LengthFieldUnderBothModes :
    8 * (0x1FFFFFFF : Word).toNat < 2 ^ 32 ∧ ¬ 8 * (0x20000000 : Word).toNat < 2 ^ 32 := by decide

theorem witness_ScheduleFollowsTheRecurrence : (15 < 16 ∧ 16 ≤ 16 ∧ 16 < 64) ∧ (16 ≤ 63 ∧ 63 < 64) := by decide

/-- The least and the greatest amount, at bits 0 and 31, from x = 1 by hand. -/
theorem witness_RotationsMoveEveryBit :
    0 < 1 ∧ 31 < 32 ∧ (rotr 1 1).getLsbD 31 = true ∧ (rotr 1 31).getLsbD 1 = true ∧ (shr 1 1).getLsbD 31 = false ∧
      (smallSigma0 0x80000000).getLsbD 28 = true ∧ (smallSigma1 0x80000000).getLsbD 21 = true := by
  decide

theorem witness_ChoiceAndMajorityByBit :
    31 < 32 ∧ (ch 0x80000000 0x80000000 0).getLsbD 31 = true ∧ (maj 1 1 0).getLsbD 0 = true := by decide

theorem witness_HexDigestIsInjective : hexDigest iv = hexDigest iv ∧ iv ≠ row63 := ⟨rfl, by decide⟩

/-- The offsets where the ranges of R67 begin and end, in both directions. -/
theorem witness_BusErrorsChangeNothing :
    accessTarget Config.reference .read 0x024 .word = none ∧ accessTarget Config.reference .write 0x010 .word = none ∧
      (accessTarget Config.reference .write 0x00C .word).isSome = true ∧
      (accessTarget Config.reference .write 0x05C .word).isSome = true ∧
      accessTarget Config.reference .write 0x060 .word = none ∧
      (accessTarget Config.reference .read 0x07C .word).isSome = true ∧
      accessTarget Config.reference .read 0x080 .word = none ∧
      (accessTarget Config.reference .read 0x100 .word).isSome = true ∧
      (accessTarget Config.reference .read 0x23F .byte).isSome = true ∧
      accessTarget Config.reference .read 0x240 .byte = none ∧
      (accessTarget Config.reference .write 0x1FFF .byte).isSome = true ∧
      accessTarget Config.reference .write 0x2000 .byte = none ∧
      accessTarget tinyConfig .read 0xFFFC .word = none := by decide

theorem witness_ReadsReturnTheRegisters :
    Config.reference.Legal ∧ State.reset.busy = false ∧ (0x020, (0x53484132 : Word)) ∈ [(0x020, (0x53484132 : Word))] ∧
      (60 < 64 ∧ 60 % 4 = 0) ∧ 63 < 64 ∧ (4092 < Config.reference.msgCap ∧ 4092 % 4 = 0) ∧ 4095 < Config.reference.msgCap ∧
      (∃ v : Word, v.toNat = 0x30 * 2 ^ 24 + 0x61 * 2 ^ 16 + 0xFF * 2 ^ 8 + 0xFF) :=
  ⟨by decide, by decide, by decide, by decide, by decide, by decide, by decide, ⟨0x3061FFFF, by decide⟩⟩

theorem witness_MsgWritesAreBigEndian :
    State.reset.busy = false ∧ Config.reference.Legal ∧ (4092 < Config.reference.msgCap ∧ 4092 % 4 = 0) ∧
      4095 < Config.reference.msgCap := by decide

theorem witness_HWriteSetsOneWord : State.reset.busy = false ∧ (running 8).busy = true := by decide

theorem witness_MsgLenWriteRestarts : (abcIn .rounding 63).busy = false := by decide

/-- Each range of the first clause at its ends; each of the three ways of the second. -/
theorem witness_OverrunDropsTheWrite :
    (running 8).busy = true ∧ (accessTarget (running 8).cfg .write 0x000 .word).isSome = true ∧
      (accessTarget (running 8).cfg .write 0x00C .word).isSome = true ∧
      (accessTarget (running 8).cfg .write 0x040 .word).isSome = true ∧
      (accessTarget (running 8).cfg .write 0x05C .word).isSome = true ∧
      (accessTarget (running 8).cfg .write 0x1FFF .byte).isSome = true ∧
      (∃ t, step { State.reset with ovr := true, turns := [.host (.write 0x004 .word 0x20)] } = .next t ∧ t.ovr = false) ∧
      (∃ t, step { State.reset with ovr := true, turns := [.reset] } = .next t ∧ t.ovr = false) ∧
      (∃ t, step { running 0xA with ovr := true } = .next t ∧ t.ovr = false) :=
  ⟨by decide, by decide, by decide, by decide, by decide, by decide, ⟨_, rfl, by decide⟩, ⟨_, rfl, by decide⟩,
    ⟨_, rfl, by decide⟩⟩

theorem witness_BusyVolatileReadsDraw :
    ((running 8).busy = true ∧ accessTarget (running 8).cfg .read 0x010 .word = some .nblk ∧
      accessTarget (running 8).cfg .read 0x018 .word = some .roundCtr ∧
      accessTarget (running 8).cfg .read 0x23F .byte = some (.hex 63) ∧
      Region.nblk ∉ [Region.ctrl, .status, .irqEn, .capacity, .id] ∧ Region.nblk ≠ .roundCtr ∧
      Region.roundCtr ∉ [Region.ctrl, .status, .irqEn, .capacity, .id] ∧
      Region.hex 63 ∉ [Region.ctrl, .status, .irqEn, .capacity, .id]) ∧
      (running 8).Inv ∧ (abcIn .rounding 64).Inv ∧ (abcIn .rounding 64).busy = false :=
  ⟨by decide, witness_running_inv 8, witness_abcIn_inv _ _ (by decide) (by decide), by decide⟩

theorem witness_RepeatedWritesAreIdempotent :
    Memory.wf abc.mem ∧ accessTarget abc.cfg .write 0x1000 .word ≠ some .ctrl ∧
      accessTarget abc.cfg .write 0x00C .word ≠ some .ctrl ∧ accessTarget abc.cfg .write 0x024 .word ≠ some .ctrl := by
  decide +kernel

/-- A step of each kind: an issue, a completion, a reset, an idle turn. -/
theorem witness_OnlyTheNamedEventsChangeTheStatus :
    (∃ t, step { State.reset with turns := [.host (.write 0 .word 8)] } = .next t ∧ t.busy = true) ∧
      (running 8).CompletesNext ∧ (∃ t, step (running 8) = .next t ∧ t.done = true) ∧
      ({ running 8 with turns := [.engine] } : State).CompletesNext ∧
      ({ running 8 with turns := [.reset] } : State).ResetsNext ∧
      (∃ t, step { running 0xB with err := .ok } = .next t ∧ t.err ≠ .ok) ∧
      (∃ t, step { running 0xA with hex := Vector.replicate 64 0x30, w := Vector.replicate 64 1 } = .next t ∧ t.hex[0] = 0 ∧
        t.w[0] = 0 ∧ t.pending ≠ 0xA) ∧
      ((nextState (step { abc with pending := 2, busy := true })).map (·.padded) = some true) ∧
      (∀ x ∈ [Turn.reset, .host (.write 0 .word 8), .host (.write 4 .word 2)],
        (nextState (step { State.reset with done := true, turns := [x] })).map (·.done) = some false) ∧
      (∀ x ∈ [Turn.reset, .host (.write 12 .word 3)],
        (nextState (step { abcPadded with turns := [x] })).map (·.padded) = some false) ∧
      ((nextState (step { abcPadded with pending := 0xA, busy := true })).map (·.padded) = some false) :=
  ⟨⟨_, rfl, by decide⟩, by decide, ⟨_, rfl, by decide⟩, by decide, by decide, ⟨_, rfl, by decide⟩,
    ⟨_, rfl, by decide, by decide, by decide⟩, by decide +kernel, by decide +kernel, by decide +kernel, by decide +kernel⟩

/-- The same offset in two windows, and an address below one. -/
theorem witness_BaseOnlyMovesTheWindow :
    0xFFFC < tinyConfig.base ∧
      (nextState (step (abc.placedAt 0x10000 [.host (.read 0x020 .word)]))).map (·.replies.length) = some 1 ∧
      (nextState (step (abc.placedAt 0 [.host (.read 0x020 .word)]))).map (·.replies) =
        (nextState (step (abc.placedAt 0x10000 [.host (.read 0x020 .word)]))).map (·.replies) := by decide +kernel

/-- The first and the last row, and the roots of the first primes: ∛2 = 1.2599.., √2 = 1.4142.. -/
theorem witness_ConstantTablesAreTheRootsOfThePrimes :
    roundConstant 0 = 0x428a2f98 ∧ roundConstant 63 = 0xc67178f2 ∧ 7 < 8 ∧ 63 < 64 ∧
      (1 * 2 ^ 32 + (0x428a2f98 : Word).toNat) ^ 3 ≤ 2 * 2 ^ 96 ∧ (1 * 2 ^ 32 + iv[0].toNat) ^ 2 ≤ 2 * 2 ^ 64 := by decide

/-- R384, R108, section 2.9: of the reads of a run those made while BUSY = 0 count, the 0 of a bus error among them; the
reads before the run do not; the run ends at the completion. -/
theorem test_outcome :
    (nextState (hostRun { State.reset with replies := [{ busy := false, response := .readOk 7 }] }
        [.host (.read 0x020 .word), .host (.read 0x024 .word), .host (.write 0 .word 8), .host (.read 0x010 .word)])).map
      (fun t => (State.outcomeReads { State.reset with replies := [{ busy := false, response := .readOk 7 }] } t, t.busy,
        t.hex[0])) = some ([0x53484132, 0], false, 0x36) := by decide +kernel

theorem witness_BinaryDigestIsTheStateInBytes :
    3 < 4 ∧ 31 < 32 ∧ (binaryDigest iv)[0] = 0x6a ∧ (binaryDigest iv)[31] = 0x19 := by decide +kernel

theorem witness_DigestIsTheSameInBothLengthModes : ([0x61, 0x62, 0x63] : List Byte).length ≤ 0x1FFFFFFF := by decide

end Sys2Proof.Tests
end

section
/-! PROOFS. The host's writes to H, MSG_LEN and STATUS (10_state.md R70, R71, R72). -/

namespace Sys2Proof.Machine

/-! ## The targets of the three writes, and a write that meets BUSY = 0 -/

theorem accessTarget_write_hOffset (c : Config) (i : Fin 8) :
    accessTarget c .write (c.base + 0x040 + 4 * i.val) .word = some (.h i) := by
  rw [Nat.add_assoc]
  exact accessTarget_of_region (fun _ => by omega) (regionAt_h _ i) rfl

theorem accessTarget_write_msgLenOffset (c : Config) :
    accessTarget c .write (c.base + 0x00C) .word = some .msgLen :=
  accessTarget_of_region (fun _ => rfl) rfl rfl

theorem accessTarget_write_statusOffset (c : Config) :
    accessTarget c .write (c.base + 0x004) .word = some .status :=
  accessTarget_of_region (fun _ => rfl) rfl rfl

/-- A write while BUSY = 0 is performed (R110). -/
theorem State.serveWrite_idle {s : State} {addr : Nat} {size : Size} {r : Region} (v : Word)
    (h : accessTarget s.cfg .write addr size = some r) (idle : s.busy = false) :
    s.serve (.write addr size v) = (s.writeTarget size v r).answer false .writeOk := by
  rw [State.serveWrite_of_target v h (.inl idle), idle]

/-! ## What the writes do to the written element -/

/-- One word of a State after one of its words is set, with `Fin` indices as R41 numbers them. -/
theorem getElem_set_fin {n : Nat} (h : Vector Word n) (i j : Fin n) (v : Word) :
    (h.set i v)[j] = if j = i then v else h[j] := by
  simp only [Fin.getElem_fin, Vector.getElem_set, Fin.ext_iff, eq_comm]

/-- Write-1-to-clear by bit `n`, with the bit read by arithmetic on the word. -/
theorem and_not_getLsbD (b : Bool) (v : Word) (n : Nat) :
    (b && !v.getLsbD n) = if v.toNat / 2 ^ n % 2 = 1 then false else b := by
  rw [← BitVec.testBit_toNat, Nat.testBit_eq_decide_div_mod_eq]
  split <;> simp [*]

/-! ## The obligations -/

/-- Settles O52: H[i] is a locked target, so BUSY alone decides between the write and the drop. -/
theorem hWriteSetsOneWord : Obligations.HWriteSetsOneWord := by
  intro s i v
  have target := accessTarget_write_hOffset s.cfg i
  constructor
  · intro idle
    exact ⟨_, State.serveWrite_idle v target idle, rfl, fun j => getElem_set_fin s.h i j v⟩
  · exact fun busy => State.serveWrite_dropped v target busy rfl

/-- Settles O53: the write is performed, and `State.writeMsgLen` is the restart of R71. -/
theorem msgLenWriteRestarts : Obligations.MsgLenWriteRestarts := by
  intro s v idle
  exact State.serveWrite_idle v (accessTarget_write_msgLenOffset s.cfg) idle

/-- Settles O54: STATUS is not locked, so the write is performed whatever BUSY is. -/
theorem statusWriteClearsByOnes : Obligations.StatusWriteClearsByOnes := by
  intro s v
  exact ⟨_, State.serveWrite_of_target v (accessTarget_write_statusOffset s.cfg) (.inr rfl), rfl,
    and_not_getLsbD s.done v 1, and_not_getLsbD s.ovr v 5⟩

end Sys2Proof.Machine
end

section
/-! PROOFS. Bus errors and reads (20_memory.md R108, R109). -/

namespace Sys2Proof.Machine

/-! ## Which transactions are admitted (R67, R106, R107) -/

/-- A transaction has a target exactly when a word access is aligned and the region at its offset admits it. -/
theorem accessTarget_isSome_iff (c : Config) (dir : Dir) (off : Nat) (size : Size) :
    (accessTarget c dir (c.base + off) size).isSome = true ↔
      (size = .word → off % 4 = 0) ∧ (regionAt c.msgCap off).any (admits dir size) = true := by
  rw [accessTarget_at]
  by_cases misaligned : size = .word ∧ off % 4 ≠ 0
  · rw [if_pos misaligned]
    simp [misaligned]
  · have aligned : size = .word → off % 4 = 0 := by simpa using misaligned
    rw [if_neg misaligned]
    cases regionAt c.msgCap off with
    | none => simp
    | some r => simpa using fun _ => aligned

/-- Where a word access is admitted: the writable words and MSG, and for a read the read-only ones. Pushed through the
chain of ranges, `admits` leaves a claim about the offset alone. -/
theorem regionAt_admits_word (cap off : Nat) (dir : Dir) :
    (regionAt cap off).any (admits dir .word) = true ↔
      off < 0x010 ∨ (0x040 ≤ off ∧ off < 0x060) ∨ (0x1000 ≤ off ∧ off < 0x1000 + cap) ∨
        (dir = .read ∧
          ((0x010 ≤ off ∧ off < 0x024) ∨ (0x060 ≤ off ∧ off < 0x080) ∨ (0x100 ≤ off ∧ off < 0x240))) := by
  unfold regionAt
  simp only [apply_ite (Option.any (admits dir .word)), Option.any_some, Option.any_none, admits]
  cases dir <;> simp <;> omega

/-- Where a byte access is admitted: MSG, and for a read HEX. -/
theorem regionAt_admits_byte (cap off : Nat) (dir : Dir) :
    (regionAt cap off).any (admits dir .byte) = true ↔
      (0x1000 ≤ off ∧ off < 0x1000 + cap) ∨ (dir = .read ∧ 0x200 ≤ off ∧ off < 0x240) := by
  unfold regionAt
  simp only [apply_ite (Option.any (admits dir .byte)), Option.any_some, Option.any_none, admits]
  cases dir <;> simp <;> omega

/-- No target admits a 16-bit access. -/
theorem admits_half (dir : Dir) : admits dir .half = fun _ => false := by
  funext r
  cases r <;> simp [admits]

/-- A read without a target is a bus error with data 0 (R108). -/
theorem State.serve_read_error {s : State} {addr : Nat} {size : Size}
    (h : accessTarget s.cfg .read addr size = none) :
    s.serve (.read addr size) = s.answer s.busy (.readError 0) := by
  show s.serveRead addr size = _
  rw [State.serveRead, h]

/-- A write without a target is a bus error (R108). -/
theorem State.serve_write_error {s : State} {addr : Nat} {size : Size} (v : Word)
    (h : accessTarget s.cfg .write addr size = none) :
    s.serve (.write addr size v) = s.answer s.busy .writeError := by
  show s.serveWrite addr size v = _
  rw [State.serveWrite, h]

/-- Settles O49: the admitted offsets are found size by size; without a target, serving only records the error. -/
theorem busErrorsChangeNothing : Obligations.BusErrorsChangeNothing := by
  intro s
  refine ⟨fun dir off size => ?_, fun _ _ => State.serve_read_error, fun _ _ v => State.serve_write_error v⟩
  rw [accessTarget_isSome_iff]
  cases size with
  | word => simp [regionAt_admits_word]
  | byte => simp [regionAt_admits_byte]
  | half => simp [admits_half]

/-! ## The value of STATUS by its fields (R53) -/

/-- A field placed by `|||` above the bits already in use adds its shifted number. -/
theorem or_field_toNat {a b : Word} {x y n : Nat} (ha : a.toNat = x) (hb : b.toNat = y) (hx : x < 2 ^ n)
    (hy : y * 2 ^ n < 2 ^ 32) : (a ||| b <<< n).toNat = x + y * 2 ^ n := by
  subst ha hb
  rw [BitVec.toNat_or, BitVec.toNat_shiftLeft, Nat.shiftLeft_eq, Nat.mod_eq_of_lt hy, Nat.or_comm, Nat.mul_comm,
    ← Nat.two_pow_add_eq_or_of_lt hx, Nat.add_comm]

theorem flagWord_toNat (b : Bool) : (flagWord b).toNat = b.toNat := by
  cases b <;> rfl

theorem ResultCode.code_toNat (e : ResultCode) :
    e.code.toNat = match e with | .ok => 0 | .illegal => 1 | .capacity => 2 | .sequence => 3 := by
  cases e <;> rfl

theorem ResultCode.code_toNat_le (e : ResultCode) : e.code.toNat ≤ 3 := by
  cases e <;> decide

theorem CPhase.code_toNat (p : CPhase) :
    p.code.toNat = match p with | .empty => 0 | .scheduled => 1 | .rounding => 2 := by
  cases p <;> rfl

theorem CPhase.code_toNat_le (p : CPhase) : p.code.toNat ≤ 2 := by
  cases p <;> decide

theorem lenModeBit_toNat (m : LengthMode) :
    (lenModeBit m).toNat = match m with | .ref32 => 0 | .full64 => 1 := by
  cases m <;> rfl

/-- STATUS is the sum of its fields, each at its bit (R53): no two overlap. -/
theorem State.statusWord_toNat (s : State) {e p m : Nat} (err : s.err.code.toNat = e) (phase : s.phase.code.toNat = p)
    (mode : (lenModeBit s.cfg.lenMode).toNat = m) :
    s.statusWord.toNat =
      s.busy.toNat + s.done.toNat * 2 + e * 2 ^ 2 + s.ovr.toNat * 2 ^ 5 + s.padded.toNat * 2 ^ 6 + p * 2 ^ 7 +
        m * 2 ^ 9 := by
  subst err phase mode
  have := s.busy.toNat_le
  have := s.done.toNat_le
  have := s.err.code_toNat_le
  have := s.ovr.toNat_le
  have := s.padded.toNat_le
  have := s.phase.code_toNat_le
  have := (lenModeBit s.cfg.lenMode).toNat_le
  refine or_field_toNat (or_field_toNat (or_field_toNat (or_field_toNat (or_field_toNat (or_field_toNat
    (flagWord_toNat _) (flagWord_toNat _) ?_ ?_) rfl ?_ ?_) (flagWord_toNat _) ?_ ?_) (flagWord_toNat _) ?_ ?_)
    rfl ?_ ?_) (flagWord_toNat _) ?_ ?_ <;> omega

/-! ## What an admitted read answers (R109) -/

/-- A read at an offset of the map, given its region and the register's value. -/
theorem State.serve_read_offset {s : State} {off : Nat} {size : Size} {r : Region} {v : Word}
    (region : regionAt s.cfg.msgCap off = some r) (admitted : admits .read size r = true)
    (steady : s.busy = false ∨ volatileTarget r = false) (value : v = s.readTarget size r)
    (aligned : size = .word → off % 4 = 0) :
    s.serve (.read (s.cfg.base + off) size) = s.answer s.busy (.readOk v) := by
  rw [value]
  exact State.serveRead_of_target (accessTarget_of_region aligned region admitted) steady

/-- While BUSY = 0 every target's read returns its value. -/
theorem State.serve_read_idle {s : State} {off : Nat} {size : Size} {r : Region} {v : Word} (idle : s.busy = false)
    (region : regionAt s.cfg.msgCap off = some r) (admitted : admits .read size r = true)
    (value : v = s.readTarget size r) (aligned : size = .word → off % 4 = 0) :
    s.serve (.read (s.cfg.base + off) size) = s.answer false (.readOk v) := by
  rw [State.serve_read_offset region admitted (.inl idle) value aligned, idle]

/-- A word of four bytes, the first the most significant, is their `be32` (R11). -/
theorem eq_be32_of_toNat {v : Word} {a b c d : Byte}
    (h : v.toNat = a.toNat * 2 ^ 24 + b.toNat * 2 ^ 16 + c.toNat * 2 ^ 8 + d.toNat) : v = be32 a b c d :=
  BitVec.eq_of_toNat_eq (h.trans (be32_toNat a b c d).symm)

/-- A word with the number of a byte is that byte zero-extended. -/
theorem eq_setWidth_of_toNat {v : Word} {b : Byte} (h : v.toNat = b.toNat) : v = b.setWidth 32 :=
  BitVec.eq_of_toNat_eq (by rw [h, BitVec.toNat_setWidth]; omega)

/-- The reads that BUSY does not disturb (R109, R111). -/
theorem State.serve_read_steady (s : State) {off : Nat} {v : Word}
    (h : (off, v) ∈ [(0x000, 0), (0x004, s.statusWord), (0x008, if s.doneIe then 1 else 0),
      (0x01C, BitVec.ofNat 32 s.cfg.msgCap), (0x020, 0x53484132)]) :
    s.serve (.read (s.cfg.base + off) .word) = s.answer s.busy (.readOk v) := by
  simp only [List.mem_cons, List.not_mem_nil, or_false, Prod.mk.injEq] at h
  rcases h with ⟨rfl, rfl⟩ | ⟨rfl, rfl⟩ | ⟨rfl, rfl⟩ | ⟨rfl, rfl⟩ | ⟨rfl, rfl⟩
  · exact State.serve_read_offset (r := .ctrl) rfl rfl (.inr rfl) rfl fun _ => rfl
  · exact State.serve_read_offset (r := .status) rfl rfl (.inr rfl) rfl fun _ => rfl
  · exact State.serve_read_offset (r := .irqEn) rfl rfl (.inr rfl) rfl fun _ => rfl
  · exact State.serve_read_offset (r := .capacity) rfl rfl (.inr rfl) rfl fun _ => rfl
  · exact State.serve_read_offset (r := .id) rfl rfl (.inr rfl) rfl fun _ => rfl

/-- The reads of the length and the counters. -/
theorem State.serve_read_counter {s : State} (idle : s.busy = false) {off : Nat} {v : Word}
    (h : (off, v) ∈ [(0x00C, s.msgLen), (0x010, s.nblk), (0x014, s.blkIdx), (0x018, s.roundCtr)]) :
    s.serve (.read (s.cfg.base + off) .word) = s.answer false (.readOk v) := by
  simp only [List.mem_cons, List.not_mem_nil, or_false, Prod.mk.injEq] at h
  rcases h with ⟨rfl, rfl⟩ | ⟨rfl, rfl⟩ | ⟨rfl, rfl⟩ | ⟨rfl, rfl⟩
  · exact State.serve_read_idle (r := .msgLen) idle rfl rfl rfl fun _ => rfl
  · exact State.serve_read_idle (r := .nblk) idle rfl rfl rfl fun _ => rfl
  · exact State.serve_read_idle (r := .blkIdx) idle rfl rfl rfl fun _ => rfl
  · exact State.serve_read_idle (r := .roundCtr) idle rfl rfl rfl fun _ => rfl

/-- MSG_CAP fits the 32 bits of CAPACITY (R6). -/
theorem capacity_toNat {c : Config} (legal : c.Legal) : (BitVec.ofNat 32 c.msgCap).toNat = c.msgCap := by
  obtain ⟨-, -, small, -⟩ := legal
  rw [BitVec.toNat_ofNat]
  omega

/-- Settles O50: each line of the table is a region of the map and the value `State.readTarget` gives it; the two buffers'
values are recognised by their bytes. -/
theorem readsReturnTheRegisters : Obligations.ReadsReturnTheRegisters := by
  intro s legal
  refine ⟨fun _ _ => s.serve_read_steady, ?_, capacity_toNat legal, fun idle => ⟨?_, ?_⟩⟩
  · exact s.statusWord_toNat s.err.code_toNat s.phase.code_toNat (lenModeBit_toNat _)
  · rintro off v (counter | ⟨i, rfl, value⟩ | ⟨i, rfl, value⟩ | ⟨t, rfl, value⟩ | ⟨k, small, aligned, rfl, value⟩ |
      ⟨k, small, aligned, rfl, value⟩)
    · exact State.serve_read_counter idle counter
    · exact State.serve_read_idle idle (regionAt_h _ i) rfl value fun _ => by omega
    · exact State.serve_read_idle idle (regionAt_wv _ i) rfl value fun _ => by omega
    · exact State.serve_read_idle idle (regionAt_w _ t) rfl value fun _ => by omega
    · exact State.serve_read_idle idle (regionAt_hex _ ⟨k, small⟩) rfl (eq_be32_of_toNat value) fun _ => by omega
    · exact State.serve_read_idle idle (regionAt_msg _ k small) rfl (eq_be32_of_toNat value) fun _ => by omega
  · rintro off v (⟨k, small, rfl, value⟩ | ⟨k, small, rfl, value⟩)
    · exact State.serve_read_idle idle (regionAt_hex _ ⟨k, small⟩) rfl (eq_setWidth_of_toNat value) nofun
    · exact State.serve_read_idle idle (regionAt_msg _ k small) rfl (eq_setWidth_of_toNat value) nofun

end Sys2Proof.Machine
end

section
/-! PROOFS. Which command words decode (30_encoding.md R144, R145). -/

namespace Sys2Proof

/-! ## Decoding by the numbers of the fields -/

/-- The OP values of R145 whose command has no operand, each with its command. -/
def plainOps : List (Nat × Instr) :=
  [(0x0, .nop), (0x1, .init), (0x2, .pad), (0x3, .sched), (0x4, .wvload), (0x6, .fold), (0x7, .compress),
    (0x8, .format), (0x9, .digest), (0xA, .sreset)]

theorem plainOps_lt {p : Nat × Instr} (h : p ∈ plainOps) : p.1 < 2 ^ 4 :=
  (by decide : ∀ q ∈ plainOps, q.1 < 2 ^ 4) p h

/-- What an OP value and an N name (R141, R142, R143), arm by arm: the sixth is ROUND, the last the reserved OP values. -/
theorem decodeOp_eq_ok {op : Nat} {n : BitVec 7} {i : Instr} :
    decodeOp op n = .ok i ↔
      (n.toNat = 0 ∧ (op, i) ∈ plainOps) ∨ (op = 0x5 ∧ 1 ≤ n.toNat ∧ n.toNat ≤ 64 ∧ i = .round n) := by
  unfold decodeOp
  split
  case h_6 =>
    rw [roundCommand_eq_ok, @eq_comm _ _ i]
    simp [plainOps]
  case h_12 => simp_all [plainOps]
  all_goals
    rw [plainCommand_eq_ok, BitVec.toNat_eq, @eq_comm _ _ i]
    simp [plainOps]

/-- Which words decode, and to what, with the fields read by arithmetic from the word (R144). -/
theorem decode_eq_ok_iff_toNat {c : Word} {i : Instr} :
    decode c = .ok i ↔
      c.toNat / 2 ^ 15 = 0 ∧ c.toNat / 2 ^ 4 % 2 ^ 4 = 0 ∧
        ((c.toNat / 2 ^ 8 % 2 ^ 7 = 0 ∧ (c.toNat % 2 ^ 4, i) ∈ plainOps) ∨
          (c.toNat % 2 ^ 4 = 0x5 ∧ 1 ≤ c.toNat / 2 ^ 8 % 2 ^ 7 ∧ c.toNat / 2 ^ 8 % 2 ^ 7 ≤ 64 ∧
            i = .round (BitVec.ofNat 7 (c.toNat / 2 ^ 8 % 2 ^ 7)))) := by
  have count : fieldN c = BitVec.ofNat 7 (c.toNat / 2 ^ 8 % 2 ^ 7) := by
    rw [← fieldN_toNat, BitVec.ofNat_toNat, BitVec.setWidth_eq]
  rw [decode_eq_ok, decodeOp_eq_ok, BitVec.toNat_eq, BitVec.toNat_eq, fieldRes1_toNat, fieldRes0_toNat, fieldOp_toNat,
    fieldN_toNat, ← count]
  rfl

/-! ## The 74 words (R145) -/

/-- The word of a command without an operand is its OP. -/
theorem decode_plainWord {op : Nat} {i : Instr} (h : (op, i) ∈ plainOps) : decode (BitVec.ofNat 32 op) = .ok i := by
  have small : op < 2 ^ 4 := plainOps_lt h
  have number : (BitVec.ofNat 32 op).toNat = op := by
    rw [BitVec.toNat_ofNat]
    omega
  rw [decode_eq_ok_iff_toNat, number, Nat.mod_eq_of_lt small]
  exact ⟨by omega, by omega, .inl ⟨by omega, h⟩⟩

/-- The word of ROUND N for a legal N. -/
theorem decode_roundWord {n : Nat} (low : 1 ≤ n) (high : n ≤ 64) :
    decode (BitVec.ofNat 32 (0x5 + n * 0x100)) = .ok (.round (BitVec.ofNat 7 n)) := by
  have number : (BitVec.ofNat 32 (0x5 + n * 0x100)).toNat = 0x5 + n * 0x100 := by
    rw [BitVec.toNat_ofNat]
    omega
  have count : (0x5 + n * 0x100) / 2 ^ 8 % 2 ^ 7 = n := by omega
  rw [decode_eq_ok_iff_toNat, number, count]
  exact ⟨by omega, by omega, .inr ⟨by omega, low, high, rfl⟩⟩

/-- A word that decodes is one of the 74: with RES1 = RES0 = 0 its number is OP + N · 2^8. -/
theorem exists_decode_eq_ok {c : Word} :
    (∃ i, decode c = .ok i) ↔
      c ∈ plainOps.map (fun p => BitVec.ofNat 32 p.1) ∨
        ∃ n : Nat, 1 ≤ n ∧ n ≤ 64 ∧ c = BitVec.ofNat 32 (0x5 + n * 0x100) := by
  constructor
  · rintro ⟨i, h⟩
    obtain ⟨res1, res0, ⟨n_zero, plain⟩ | ⟨op, low, high, -⟩⟩ := decode_eq_ok_iff_toNat.mp h
    · have word : c = BitVec.ofNat 32 (c.toNat % 2 ^ 4) := BitVec.eq_of_toNat_eq (by rw [BitVec.toNat_ofNat]; omega)
      exact .inl (List.mem_map.mpr ⟨_, plain, word.symm⟩)
    · exact .inr ⟨_, low, high, BitVec.eq_of_toNat_eq (by rw [BitVec.toNat_ofNat]; omega)⟩
  · rintro (plain | ⟨n, low, high, rfl⟩)
    · obtain ⟨⟨op, i⟩, h, rfl⟩ := List.mem_map.mp plain
      exact ⟨i, decode_plainWord h⟩
    · exact ⟨_, decode_roundWord low high⟩

/-- Settles O2: the rule and the 74 words are the two theorems above, and completion is by definition the decoder's answer
for PENDING. -/
theorem decodeIsTheRule : Obligations.DecodeIsTheRule :=
  ⟨fun _ _ => decode_eq_ok_iff_toNat, fun _ => exists_decode_eq_ok, fun _ => rfl⟩

end Sys2Proof
end

section
/-! PROOFS. The datapath: padding, length field, schedule and word operations (40_datapath.md R172 to R175, R178 to R182,
R186). -/

namespace Sys2Proof.Machine

/-! ## The padded length (R181) -/

theorem padLen_mod_64 (l : Nat) : padLen l % 64 = 0 := by
  rw [padLen_eq, Nat.mul_mod_right]

/-- No smaller multiple of 64 holds the Message, 0x80 and the length field. -/
theorem padLen_least {l p : Nat} (multiple : p % 64 = 0) (fits : l + 9 ≤ p) : padLen l ≤ p := by
  have := padLen_le l
  have := padLen_mod_64 l
  omega

/-- Settles O40: between L + 9 and L + 72 lies one multiple of 64. -/
theorem padLenIsTheLeastFit : Obligations.PadLenIsTheLeastFit :=
  ⟨fun l => ⟨padLen_mod_64 l, padLen_ge l, fun _ => padLen_least, rfl⟩, by decide⟩

/-! ## The padding (R182) -/

/-- A bit length is 448 modulo 512 exactly when 8 more bytes fill the last Block. -/
theorem bitLength_eq_448_iff (n : Nat) : 8 * n % 512 = 448 ↔ (n + 8) % 64 = 0 := by
  omega

/-- Settles O41: with Z zeros the padding reaches up to `padLen`, so Z is least because `padLen` is. -/
theorem paddingHasTheRuleShape : Obligations.PaddingHasTheRuleShape := by
  intro mode l
  have ge := padLen_ge l
  have le := padLen_le l
  have reach : l + 1 + (padLen l - l - 9) + 8 = padLen l := by omega
  refine ⟨padLen l - l - 9, rfl, rfl, by omega, ?_, fun y fills => ?_, padBytes_length mode l, by omega, by omega,
    be64bytes_length _, be64bytes_getElem? _⟩
  · rw [bitLength_eq_448_iff, reach]
    exact padLen_mod_64 l
  · have least := padLen_least (l := l) ((bitLength_eq_448_iff _).mp fills) (by omega)
    omega

/-! ## The length field (R180) -/

theorem lenField_ref32_toNat (l : Nat) : (lenField .ref32 l).toNat = 8 * l % 2 ^ 32 := by
  rw [lenField, BitVec.toNat_ofNat]
  omega

theorem lenField_full64_toNat (l : Nat) : (lenField .full64 l).toNat = 8 * l % 2 ^ 64 :=
  BitVec.toNat_ofNat ..

/-- Settles O42: for a 32-bit length FULL64 loses nothing, so the modes agree exactly when REF32 loses nothing either. -/
theorem lengthFieldUnderBothModes : Obligations.LengthFieldUnderBothModes := by
  refine ⟨fun l => ⟨lenField_ref32_toNat l, lenField_full64_toNat l⟩, fun l => ?_, rfl, rfl⟩
  have whole : (lenField .full64 l.toNat).toNat = 8 * l.toNat := lenField_toNat .full64 l.toNat l.isLt
  refine ⟨⟨?_, by omega⟩, whole⟩
  rw [BitVec.toNat_eq, lenField_ref32_toNat, whole]
  omega

/-! ## The schedule (R186) -/

theorem blockWord_toNat (b : Vector Byte 64) (t : Nat) :
    (blockWord b t).toNat =
      (b[4 * t]!).toNat * 2 ^ 24 + (b[4 * t + 1]!).toNat * 2 ^ 16 + (b[4 * t + 2]!).toNat * 2 ^ 8 +
        (b[4 * t + 3]!).toNat :=
  be32_toNat ..

/-- Addition of words is modulo 2^32 once, at the end (R10). -/
theorem add_four_toNat (a b c d : Word) :
    (a + b + c + d).toNat = (a.toNat + b.toNat + c.toNat + d.toNat) % 2 ^ 32 := by
  simp only [BitVec.toNat_add, Nat.mod_add_mod]

/-- Settles O43: the two lines of the recurrence, read by number. -/
theorem scheduleFollowsTheRecurrence : Obligations.ScheduleFollowsTheRecurrence := by
  intro b
  constructor
  · intro t first
    rw [schedule_low b t first, blockWord_toNat]
  · intro t later last
    rw [schedule_high b t later last, add_four_toNat]

/-! ## Rotations and shifts, bit by bit (R10, R172 to R175) -/

/-- A rotation by 0 < n < 32 moves bit (i + n) mod 32 to bit i: from the right shift while i + n < 32, from the left shift
past that. -/
theorem rotr_getLsbD (x : Word) {n i : Nat} (pos : 0 < n) (amount : n < 32) (bit : i < 32) :
    (rotr x n).getLsbD i = x.getLsbD ((i + n) % 32) := by
  rw [rotr, BitVec.getLsbD_or, BitVec.getLsbD_ushiftRight, BitVec.getLsbD_shiftLeft]
  by_cases inside : i + n < 32
  · rw [Nat.mod_eq_of_lt inside, Nat.add_comm n i]
    have : i < 32 - n := by omega
    simp [this]
  · have wrap : (i + n) % 32 = i - (32 - n) := by omega
    have : ¬ i < 32 - n := by omega
    rw [wrap, BitVec.getLsbD_of_ge x (n + i) (by omega)]
    simp [bit, this]

theorem shr_getLsbD (x : Word) (n i : Nat) : (shr x n).getLsbD i = x.getLsbD (i + n) := by
  rw [shr, BitVec.getLsbD_ushiftRight, Nat.add_comm]

/-- A bit shifted in from past bit 31 is 0 (R10). -/
theorem shr_getLsbD_fill (x : Word) (n i : Nat) :
    (shr x n).getLsbD i = (decide (i + n < 32) && x.getLsbD (i + n)) := by
  rw [shr_getLsbD]
  by_cases inside : i + n < 32
  · simp [inside]
  · rw [BitVec.getLsbD_of_ge x (i + n) (by omega), Bool.and_false]

/-- Two rotations and a third word under exclusive or: the form of all four functions (R172 to R175). -/
theorem rotr_xor_rotr_xor_getLsbD (x y : Word) {n m i : Nat} (hn : 0 < n ∧ n < 32) (hm : 0 < m ∧ m < 32)
    (bit : i < 32) :
    (rotr x n ^^^ rotr x m ^^^ y).getLsbD i =
      ((x.getLsbD ((i + n) % 32) ^^ x.getLsbD ((i + m) % 32)) ^^ y.getLsbD i) := by
  rw [BitVec.getLsbD_xor, BitVec.getLsbD_xor, rotr_getLsbD x hn.1 hn.2 bit, rotr_getLsbD x hm.1 hm.2 bit]

theorem smallSigma0_getLsbD (x : Word) {i : Nat} (bit : i < 32) :
    (smallSigma0 x).getLsbD i =
      ((x.getLsbD ((i + 7) % 32) ^^ x.getLsbD ((i + 18) % 32)) ^^ (decide (i + 3 < 32) && x.getLsbD (i + 3))) := by
  rw [smallSigma0, rotr_xor_rotr_xor_getLsbD x _ (by decide) (by decide) bit, shr_getLsbD_fill]

theorem smallSigma1_getLsbD (x : Word) {i : Nat} (bit : i < 32) :
    (smallSigma1 x).getLsbD i =
      ((x.getLsbD ((i + 17) % 32) ^^ x.getLsbD ((i + 19) % 32)) ^^
        (decide (i + 10 < 32) && x.getLsbD (i + 10))) := by
  rw [smallSigma1, rotr_xor_rotr_xor_getLsbD x _ (by decide) (by decide) bit, shr_getLsbD_fill]

theorem bigSigma0_getLsbD (x : Word) {i : Nat} (bit : i < 32) :
    (bigSigma0 x).getLsbD i =
      ((x.getLsbD ((i + 2) % 32) ^^ x.getLsbD ((i + 13) % 32)) ^^ x.getLsbD ((i + 22) % 32)) := by
  rw [bigSigma0, rotr_xor_rotr_xor_getLsbD x _ (by decide) (by decide) bit,
    rotr_getLsbD x (by decide) (by decide) bit]

theorem bigSigma1_getLsbD (x : Word) {i : Nat} (bit : i < 32) :
    (bigSigma1 x).getLsbD i =
      ((x.getLsbD ((i + 6) % 32) ^^ x.getLsbD ((i + 11) % 32)) ^^ x.getLsbD ((i + 25) % 32)) := by
  rw [bigSigma1, rotr_xor_rotr_xor_getLsbD x _ (by decide) (by decide) bit,
    rotr_getLsbD x (by decide) (by decide) bit]

/-- Settles O44: each function is an exclusive or of rotations and shifts, whose bits are known; the examples compute. -/
theorem rotationsMoveEveryBit : Obligations.RotationsMoveEveryBit :=
  ⟨fun x _ pos amount _ bit => rotr_getLsbD x pos amount bit, fun x n i _ => shr_getLsbD x n i,
    fun x _ bit => ⟨smallSigma0_getLsbD x bit, smallSigma1_getLsbD x bit, bigSigma0_getLsbD x bit,
      bigSigma1_getLsbD x bit⟩, by decide⟩

/-! ## Choice and majority, bit by bit (R178, R179) -/

theorem ch_getLsbD (e f g : Word) {i : Nat} (bit : i < 32) :
    (ch e f g).getLsbD i = if e.getLsbD i then f.getLsbD i else g.getLsbD i := by
  simp only [ch, BitVec.getLsbD_xor, BitVec.getLsbD_and, BitVec.getLsbD_not, bit, decide_true, Bool.true_and]
  cases e.getLsbD i <;> simp

theorem maj_getLsbD (a b c : Word) (i : Nat) :
    (maj a b c).getLsbD i = decide (2 ≤ (a.getLsbD i).toNat + (b.getLsbD i).toNat + (c.getLsbD i).toNat) := by
  simp only [maj, BitVec.getLsbD_xor, BitVec.getLsbD_and]
  generalize a.getLsbD i = x, b.getLsbD i = y, c.getLsbD i = z
  revert x y z
  decide

/-- Settles O45: both functions act on each bit alone, where the truth table decides. -/
theorem choiceAndMajorityByBit : Obligations.ChoiceAndMajorityByBit :=
  ⟨fun e f g _ bit => ch_getLsbD e f g bit, fun a b c i _ => maj_getLsbD a b c i, by decide⟩

end Sys2Proof.Machine
end

section
/-! PROOFS. Issue, completion and the control commands (41_control.md R220, R222, R224, R226 to R228). -/

namespace Sys2Proof.Machine

/-! ## Completion (R222, R224) -/

/-- Everything a completion can do, whatever BUSY is: the command of PENDING, or ILLEGAL. -/
theorem State.completion_cases {s t : State} (h : s.completion = .next t) :
    (∃ i, decode s.pending = .ok i ∧ exec i s = .next t) ∨ t = s.complete .illegal := by
  unfold State.completion at h
  split at h
  · exact .inl ⟨_, ‹_›, h⟩
  · exact .inr (raise_eq_next.1 h)

/-- The next state of `exec` or of a completion is `s` itself completed with an error code, or some state completed with
code 0. -/
theorem eq_complete_of_exec_or_completion {i : Instr} {s t : State}
    (h : exec i s = .next t ∨ s.completion = .next t) :
    (∃ c, t = s.complete c) ∨ ∃ u : State, t = u.complete .ok := by
  have of_exec : ∀ {j : Instr}, exec j s = .next t → (∃ c, t = s.complete c) ∨ ∃ u : State, t = u.complete .ok :=
    fun run => (exec_cases run).imp (fun ⟨c, _, e⟩ => ⟨c, e⟩) (fun ⟨u, e, _⟩ => ⟨u, e⟩)
  rcases h with run | completed
  · exact of_exec run
  · rcases State.completion_cases completed with ⟨_, _, run⟩ | illegal
    · exact of_exec run
    · exact .inl ⟨_, illegal⟩

/-- Settles O7: an error code can only come from completing the start state itself. -/
theorem errorsChangeNothing : Obligations.ErrorsChangeNothing := by
  intro i s t h
  rcases eq_complete_of_exec_or_completion h with ⟨c, rfl⟩ | ⟨u, rfl⟩
  · exact ⟨rfl, rfl, fun _ => rfl⟩
  · exact ⟨rfl, rfl, fun error => absurd rfl error⟩

/-! ## Issue (R220) -/

theorem accessTarget_write_ctrlOffset (c : Config) : accessTarget c .write c.base .word = some .ctrl :=
  accessTarget_of_region (off := 0) (fun _ => rfl) rfl rfl

/-- DONE = 0 after the issue, so the interrupt output is low whatever DONE_IE is (R69). -/
theorem State.issue_irq (s : State) (v : Word) : (s.issue v).irq = false :=
  Bool.and_false _

/-- Settles O6: CTRL is a locked target, so BUSY alone decides between the issue and the drop. -/
theorem issueStoresTheWord : Obligations.IssueStoresTheWord := by
  intro s v
  have target := accessTarget_write_ctrlOffset s.cfg
  constructor
  · intro idle
    have served : s.serve (.write s.cfg.base .word v) = (s.issue v).answer false .writeOk :=
      State.serveWrite_idle v target idle
    rw [served]
    exact ⟨rfl, s.issue_irq v⟩
  · exact fun busy => State.serveWrite_dropped v target busy rfl

/-! ## NOP, INIT and SRESET (R226 to R228) -/

theorem exec_nop (s : State) : exec .nop s = .next (s.complete .ok) := rfl

theorem exec_init (s : State) : exec .init s = .next (s.loadIv.complete .ok) := rfl

theorem exec_sreset (s : State) : exec .sreset s = .next (s.softReset.complete .ok) := rfl

/-- A completion with code 0 takes BUSY, DONE and ERR out of STATUS and puts DONE = 1 in; the other fields stay (R53,
R222). -/
theorem State.complete_ok_statusWord_toNat (s : State) :
    (s.complete .ok).statusWord.toNat + (s.busy.toNat + s.done.toNat * 2 + s.err.code.toNat * 2 ^ 2) =
      s.statusWord.toNat + 2 := by
  have before := s.statusWord_toNat rfl rfl rfl
  have after := (s.complete .ok).statusWord_toNat (e := 0) rfl rfl rfl
  simp only [State.complete_busy, State.complete_done, State.complete_ovr, State.complete_padded, State.complete_phase,
    State.complete_cfg, Bool.toNat_false, Bool.toNat_true] at after
  omega

/-- Settles O23: with every field of STATUS at 0, completion leaves DONE alone. -/
theorem nopCompletes : Obligations.NopCompletes := by
  refine ⟨by decide, exec_nop, fun s t zero run => ?_⟩
  obtain rfl := finish_eq_next.1 run
  have fields := s.statusWord_toNat rfl rfl rfl
  have completed := s.complete_ok_statusWord_toNat
  have number : s.statusWord.toNat = 0 := congrArg BitVec.toNat zero
  have result : (s.complete .ok).statusWord.toNat = 2 := by omega
  exact BitVec.eq_of_toNat_eq result

/-- INIT writes constants only, so after one INIT another finds all of them in place. -/
theorem State.loadIv_complete_idem (s : State) (c : ResultCode) :
    (s.loadIv.complete c).loadIv.complete c = s.loadIv.complete c := rfl

/-- Settles O24: the eight words are `iv`, and INIT again runs into `State.loadIv_complete_idem`. -/
theorem initLoadsTheInitialState : Obligations.InitLoadsTheInitialState := by
  refine ⟨by decide, fun s => ⟨s.loadIv.complete .ok, exec_init s, rfl, ?_⟩⟩
  rw [exec_init, State.loadIv_complete_idem]

/-- After SRESET's writes only LENMODE is left in STATUS (R60, R228). -/
theorem State.softReset_statusWord_toNat (s : State) :
    s.softReset.statusWord.toNat = (lenModeBit s.cfg.lenMode).toNat * 2 ^ 9 := by
  rw [s.softReset.statusWord_toNat (e := 0) (p := 0) rfl rfl rfl]
  simp

/-- The value of STATUS after SRESET under each length mode. -/
theorem State.softReset_complete_statusWord (s : State) :
    (s.softReset.complete .ok).statusWord = if s.cfg.lenMode = .ref32 then 0x00000002 else 0x00000202 := by
  have completed := s.softReset.complete_ok_statusWord_toNat
  rw [s.softReset_statusWord_toNat] at completed
  refine BitVec.eq_of_toNat_eq ?_
  cases mode : s.cfg.lenMode <;> simpa [mode, lenModeBit, ResultCode.code] using completed

/-- Settles O25: `State.softReset` and `State.resetOf` give the same values but to MSG and the model's own fields; DONE_IE
is among them, so irq is low although DONE = 1. -/
theorem sresetRestoresTheResetValues : Obligations.SresetRestoresTheResetValues :=
  ⟨by decide, fun s =>
    ⟨s.softReset.complete .ok, exec_sreset s, rfl, s.softReset_complete_statusWord, Bool.false_and _⟩⟩

end Sys2Proof.Machine
end

section
/-! PROOFS. PAD (42_padding.md R240). -/

namespace Sys2Proof.Machine

/-! ## The completions of PAD -/

theorem exec_pad_of_not_fits {s : State} (exceeds : s.cfg.msgCap < padLen s.msgLen.toNat) :
    exec .pad s = .next (s.complete .capacity) :=
  (execPad_eq s).trans (if_pos exceeds)

theorem exec_pad_of_fits {s : State} (fits : padLen s.msgLen.toNat ≤ s.cfg.msgCap) :
    exec .pad s = .next (s.paddedState.complete .ok) :=
  (execPad_eq s).trans (if_neg (by omega))

/-! ## The bytes of MSG after PAD -/

/-- The padding counts its bytes from L (`padBytes_getD`); here they are counted from the start of the buffer. -/
theorem State.paddedState_msgByte_layout (s : State) (k : Nat) :
    s.paddedState.msgByte k =
      if k < s.msgLen.toNat ∨ padLen s.msgLen.toNat ≤ k then s.msgByte k
      else if k = s.msgLen.toNat then 0x80
      else if k < padLen s.msgLen.toNat - 8 then 0
      else BitVec.ofNat 8
        ((lenField s.cfg.lenMode s.msgLen.toNat).toNat / 2 ^ (8 * (padLen s.msgLen.toNat - 1 - k))) := by
  rw [State.paddedState_msgByte]
  by_cases outside : k < s.msgLen.toNat ∨ padLen s.msgLen.toNat ≤ k
  · rw [if_pos outside, if_neg (by omega)]
  · have first : k - s.msgLen.toNat = 0 ↔ k = s.msgLen.toNat := by omega
    have zeros : k - s.msgLen.toNat < padLen s.msgLen.toNat - s.msgLen.toNat - 8 ↔ k < padLen s.msgLen.toNat - 8 := by
      omega
    have place : padLen s.msgLen.toNat - s.msgLen.toNat - 1 - (k - s.msgLen.toNat) = padLen s.msgLen.toNat - 1 - k := by
      omega
    rw [if_neg outside, if_pos (by omega), padBytes_getD _ _ _ (by omega), place]
    simp only [first, zeros]

/-- Settles O26: the two completions of PAD; the length field's number is `lenField_toNat`, as MSG_LEN has 32 bits. -/
theorem padPadsInPlace : Obligations.PadPadsInPlace := by
  refine ⟨by decide, fun s => ⟨exec_pad_of_not_fits, fun fits =>
    ⟨s.paddedState.complete .ok, exec_pad_of_fits fits, rfl, fun k => ?_⟩⟩⟩
  have layout := s.paddedState_msgByte_layout k
  rw [lenField_toNat _ _ s.msgLen.isLt] at layout
  exact layout

end Sys2Proof.Machine
end

section
/-! PROOFS. SCHED (43_schedule.md R260). -/

namespace Sys2Proof.Machine

/-! ## The completions of SCHED -/

theorem exec_sched_of_noBlock {s : State} (none_left : s.noBlock = true) :
    exec .sched s = .next (s.complete .sequence) :=
  if_pos none_left

/-- The invariant keeps every Block below NBLK inside the buffer (R121), so SCHED finds one to read. -/
theorem State.Inv.exec_sched {s : State} (inv : s.Inv) (some_left : s.noBlock = false) :
    ∃ b, s.memRead (64 * s.blkIdx.toNat) 64 = some b ∧
      exec .sched s = .next ({ s with w := schedule b, roundCtr := 0, phase := .scheduled }.complete .ok) :=
  have read := State.memRead_of_le (inv.block_inside some_left)
  ⟨_, read, execSched_of_memRead some_left read⟩

/-! ## The words of the Block read -/

/-- A Block read from the buffer holds the bytes of MSG as they are now. -/
theorem State.memRead_getElem! {s : State} {k n i : Nat} {b : Vector Byte n} (read : s.memRead k n = some b)
    (inside : i < n) : b[i]! = s.msgByte (k + i) := by
  obtain ⟨_, bytes⟩ := State.memRead_eq_some.1 read
  rw [getElem!_pos b i inside]
  exact bytes ⟨i, inside⟩

theorem State.memRead_blockWord {s : State} {k t : Nat} {b : Vector Byte 64} (read : s.memRead k 64 = some b)
    (first : t < 16) :
    blockWord b t =
      be32 (s.msgByte (k + 4 * t)) (s.msgByte (k + 4 * t + 1)) (s.msgByte (k + 4 * t + 2))
        (s.msgByte (k + 4 * t + 3)) := by
  have byte : ∀ i, i < 64 → b[i]! = s.msgByte (k + i) := fun _ => State.memRead_getElem! read
  rw [blockWord, byte _ (by omega), byte _ (by omega), byte _ (by omega), byte _ (by omega)]
  rfl

/-- Settles O27: R334's condition is `State.noBlock`; past it, W is the `schedule` of the Block read. -/
theorem schedComputesTheSchedule : Obligations.SchedComputesTheSchedule := by
  refine ⟨by decide, fun s inv => ⟨fun sequence => ?_, fun padded before_end => ?_⟩⟩
  · exact exec_sched_of_noBlock (s.noBlock_iff.2 sequence)
  · have some_left : s.noBlock = false := by
      rw [← Bool.not_eq_true, s.noBlock_iff]
      simp [padded, before_end]
    obtain ⟨b, read, run⟩ := inv.exec_sched some_left
    exact ⟨_, run, rfl, fun k first => (schedule_low b k first).trans (State.memRead_blockWord read first),
      schedule_high b⟩

end Sys2Proof.Machine
end

section
/-! PROOFS. WVLOAD, ROUND and FOLD (44_compression.md R280 to R282). -/

namespace Sys2Proof.Machine

/-! ## WVLOAD (R280) -/

/-- What WVLOAD writes before its completion. -/
def State.seedWv (s : State) : State := { s with wv := s.h, roundCtr := 0, phase := .rounding }

theorem exec_wvload_of_empty {s : State} (empty : s.phase = .empty) : exec .wvload s = .next (s.complete .sequence) :=
  if_pos empty

theorem exec_wvload_of_ne_empty {s : State} (under_way : s.phase ≠ .empty) :
    exec .wvload s = .next (s.seedWv.complete .ok) :=
  if_neg under_way

/-- WVLOAD reads `H` only and leaves it, so a second one finds all its values in place. -/
theorem State.seedWv_complete_idem (s : State) (c : ResultCode) :
    (s.seedWv.complete c).seedWv.complete c = s.seedWv.complete c := rfl

/-- Settles O28: WVLOAD ends in phase ROUNDING, so WVLOAD again is legal and runs into `State.seedWv_complete_idem`. -/
theorem wvloadSeedsTheWorkingVariables : Obligations.WvloadSeedsTheWorkingVariables := by
  refine ⟨by decide, fun s => ⟨exec_wvload_of_empty, fun under_way =>
    ⟨s.seedWv.complete .ok, exec_wvload_of_ne_empty under_way, rfl, ?_⟩⟩⟩
  have rounding : (s.seedWv.complete .ok).phase ≠ .empty := nofun
  rw [exec_wvload_of_ne_empty rounding, State.seedWv_complete_idem]

/-! ## ROUND (R281) -/

/-- A legal round count gets past the ILLEGAL check, and SEQUENCE is decided before any round is done. -/
theorem exec_round_of_out_of_order {n : BitVec 7} {s : State} (low : 1 ≤ n.toNat) (high : n.toNat ≤ 64)
    (out_of_order : s.phase ≠ .rounding ∨ 64 < s.roundCtr.toNat + n.toNat) :
    exec (.round n) s = .next (s.complete .sequence) := by
  have legal : ¬ (n = 0 ∨ 64 < n.toNat) := by
    rintro (rfl | above)
    · exact absurd low (by decide)
    · omega
  exact (if_neg legal).trans (if_pos out_of_order)

/-- Settles O29: the vectors are the partial runs of `rounds`, each one round longer than the one before
(`rounds_last`). -/
theorem roundPerformsTheNextRounds : Obligations.RoundPerformsTheNextRounds := by
  refine ⟨fun n => decode_roundWord, fun n s low high =>
    ⟨exec_round_of_out_of_order low high, fun rounding room => ?_⟩⟩
  have run := execRound_of_legal low high rounding room
  exact ⟨_, fun k => rounds s.w s.roundCtr.toNat k s.wv, run, rfl, rounds_zero .., fun k _ =>
    ⟨_, _, rfl, rfl, rounds_last ..⟩⟩

/-! ## FOLD (R282) -/

/-- What FOLD writes before its completion. -/
def State.foldWv (s : State) : State :=
  { s with h := foldWords s.h s.wv, blkIdx := s.blkIdx + 1, roundCtr := 0, phase := .empty }

theorem exec_fold_of_out_of_order {s : State} (out_of_order : s.phase ≠ .rounding ∨ s.roundCtr.toNat ≠ 64) :
    exec .fold s = .next (s.complete .sequence) :=
  if_pos (out_of_order.imp_right (mt (congrArg BitVec.toNat)))

theorem exec_fold_of_all_rounds {s : State} (rounding : s.phase = .rounding) (all : s.roundCtr.toNat = 64) :
    exec .fold s = .next (s.foldWv.complete .ok) := by
  have all_rounds : s.roundCtr = 64 := BitVec.eq_of_toNat_eq all
  exact if_neg (by simp [rounding, all_rounds])

theorem foldWords_toNat (h v : Vector Word 8) (i : Fin 8) :
    (foldWords h v)[i].toNat = (h[i].toNat + v[i].toNat) % 2 ^ 32 := by
  rw [foldWords_getElem, BitVec.toNat_add]

/-- A Block under way is one of the Message's (R66), so BLKIDX has room to count it. -/
theorem State.Inv.blkIdx_succ_toNat {s : State} (inv : s.Inv) (under_way : s.phase ≠ .empty) :
    (s.blkIdx + 1).toNat = s.blkIdx.toNat + 1 ∧ s.blkIdx.toNat + 1 ≤ s.nblk.toNat := by
  obtain ⟨-, below⟩ := inv.phase_padded under_way
  bv_omega

/-- Settles O30: FOLD leaves phase EMPTY, where the next FOLD is out of order; that completion changes ERR only, as BUSY
and DONE already have its values. -/
theorem foldAddsTheWorkingVariables : Obligations.FoldAddsTheWorkingVariables := by
  refine ⟨by decide, fun s => ⟨exec_fold_of_out_of_order, fun rounding all =>
    ⟨s.foldWv.complete .ok, exec_fold_of_all_rounds rounding all, rfl, foldWords_toNat s.h s.wv, fun inv => ?_, ?_⟩⟩⟩
  · obtain ⟨next_index, inside⟩ := inv.blkIdx_succ_toNat (by simp [rounding])
    exact ⟨next_index, next_index.trans_le inside⟩
  · have folded : (s.foldWv.complete .ok).phase ≠ .rounding := nofun
    exact exec_fold_of_out_of_order (.inl folded)

end Sys2Proof.Machine
end

section
/-! PROOFS. FORMAT (45_digest.md R310). -/

namespace Sys2Proof.Machine

/-- Character 8i + k of the rendering, addressed by its word and its nibble as in R189. -/
theorem hexDigest_getElem!_nibble (h : Vector Word 8) (i : Fin 8) {k : Nat} (small : k < 8) :
    (hexDigest h)[8 * i.val + k]! = hexChar (nibbleOfWord h[i] k) := by
  have inside : 8 * i.val + k < 64 := by omega
  have word : (8 * i.val + k) / 8 = i.val := by omega
  have nibble : (8 * i.val + k) % 8 = k := by omega
  have character := hexDigest_getElem h ⟨8 * i.val + k, inside⟩
  simp only [word, nibble] at character
  exact (getElem!_pos (hexDigest h) _ inside).trans character

theorem exec_format (s : State) : exec .format s = .next (s.formatHex.complete .ok) := rfl

/-- Settles O32: each character is `hexChar` of its nibble, and both have their numbers (`hexChar_toNat`,
`nibbleOfWord_toNat`). -/
theorem formatRendersTheState : Obligations.FormatRendersTheState := by
  refine ⟨by decide, fun s => ⟨s.formatHex.complete .ok, exec_format s, rfl, fun i k small => ?_⟩⟩
  have letter (d : Nat) : 0x61 + d - 10 = 0x57 + d := by omega
  rw [State.complete_hex, State.formatHex_hex, hexDigest_getElem!_nibble s.h i small, hexChar_toNat,
    nibbleOfWord_toNat, letter]

end Sys2Proof.Machine
end

section
/-! PROOFS. The command errors ILLEGAL, CAPACITY and SEQUENCE (60_exceptions.md R332 to R334). -/

namespace Sys2Proof.Machine

/-! ## Which command raises which code -/

/-- The command errors of R331: each command that can raise a code, with the condition on the state it starts from. -/
inductive State.Raises (s : State) : Instr → ResultCode → Prop where
  | round_illegal {n : BitVec 7} : n = 0 ∨ 64 < n.toNat → s.Raises (.round n) .illegal
  | pad : s.cfg.msgCap < padLen s.msgLen.toNat → s.Raises .pad .capacity
  | digest : s.cfg.msgCap < padLen s.msgLen.toNat → s.Raises .digest .capacity
  | sched : s.noBlock = true → s.Raises .sched .sequence
  | compress : s.noBlock = true → s.Raises .compress .sequence
  | wvload : s.phase = .empty → s.Raises .wvload .sequence
  | round {n : BitVec 7} : ¬ (n = 0 ∨ 64 < n.toNat) → s.phase ≠ .rounding ∨ 64 < s.roundCtr.toNat + n.toNat →
      s.Raises (.round n) .sequence
  | fold : s.phase ≠ .rounding ∨ s.roundCtr.toNat ≠ 64 → s.Raises .fold .sequence

/-- A raised code completes the start state itself, before the command does anything (R224). -/
theorem State.Raises.exec_eq {i : Instr} {s : State} {c : ResultCode} (raised : s.Raises i c) :
    exec i s = .next (s.complete c) := by
  cases raised with
  | round_illegal illegal => exact if_pos illegal
  | pad exceeds => exact exec_pad_of_not_fits exceeds
  | digest exceeds => exact if_pos exceeds
  | sched none_left => exact exec_sched_of_noBlock none_left
  | compress none_left => exact if_pos none_left
  | wvload empty => exact exec_wvload_of_empty empty
  | round legal out_of_order => exact (if_neg legal).trans (if_pos out_of_order)
  | fold out_of_order => exact exec_fold_of_out_of_order out_of_order

/-- Everything a command can do, by its error: it raises one, or it completes a new state with code 0, in which DONE_IE
and OVR are as before but for SRESET (R57, R62). -/
theorem exec_raises_or_finishes {i : Instr} {s t : State} (run : exec i s = .next t) :
    (∃ c, s.Raises i c ∧ t = s.complete c) ∨
    (∃ u : State, t = u.complete .ok ∧ (i ≠ .sreset → u.doneIe = s.doneIe ∧ u.ovr = s.ovr)) := by
  cases i with
  | nop | init | format => exact .inr ⟨_, finish_eq_next.1 run, fun _ => ⟨rfl, rfl⟩⟩
  | sreset => exact .inr ⟨_, finish_eq_next.1 run, fun other => absurd rfl other⟩
  | pad =>
    rw [exec, execPad_eq] at run
    split at run
    · exact .inl ⟨_, .pad ‹_›, raise_eq_next.1 run⟩
    · exact .inr ⟨_, finish_eq_next.1 run, fun _ => ⟨rfl, rfl⟩⟩
  | digest =>
    rw [exec, execDigest_eq] at run
    split at run
    · exact .inl ⟨_, .digest ‹_›, raise_eq_next.1 run⟩
    · exact .inr ⟨_, finish_eq_next.1 run, fun _ => ⟨rfl, rfl⟩⟩
  | sched =>
    rcases execSched_cases run with ⟨none_left, eq⟩ | ⟨-, _, -, eq⟩
    · exact .inl ⟨_, .sched none_left, eq⟩
    · exact .inr ⟨_, eq, fun _ => ⟨rfl, rfl⟩⟩
  | compress =>
    rcases execCompress_cases run with ⟨none_left, eq⟩ | ⟨-, _, -, eq⟩
    · exact .inl ⟨_, .compress none_left, eq⟩
    · exact .inr ⟨_, eq, fun _ => ⟨rfl, rfl⟩⟩
  | wvload =>
    rcases execWvload_cases run with ⟨empty, eq⟩ | ⟨-, eq⟩
    · exact .inl ⟨_, .wvload empty, eq⟩
    · exact .inr ⟨_, eq, fun _ => ⟨rfl, rfl⟩⟩
  | round n =>
    rcases execRound_cases run with ⟨illegal, eq⟩ | ⟨legal, out_of_order, eq⟩ | ⟨-, -, -, eq⟩
    · exact .inl ⟨_, .round_illegal illegal, eq⟩
    · exact .inl ⟨_, .round legal out_of_order, eq⟩
    · exact .inr ⟨_, eq, fun _ => ⟨rfl, rfl⟩⟩
  | fold =>
    rcases execFold_cases run with ⟨out_of_order, eq⟩ | ⟨-, -, eq⟩
    · exact .inl ⟨_, .fold (by simpa [BitVec.toNat_eq] using out_of_order), eq⟩
    · exact .inr ⟨_, eq, fun _ => ⟨rfl, rfl⟩⟩

/-- A command records an error code exactly when it raises it. -/
theorem exec_err_iff {i : Instr} {s : State} {c : ResultCode} (error : c ≠ .ok) :
    (∃ t, exec i s = .next t ∧ t.err = c) ↔ s.Raises i c := by
  constructor
  · rintro ⟨t, run, rfl⟩
    rcases exec_raises_or_finishes run with ⟨c, raised, rfl⟩ | ⟨u, rfl, -⟩
    · exact raised
    · exact absurd rfl error
  · exact fun raised => ⟨_, raised.exec_eq, rfl⟩

/-! ## CAPACITY (R333) -/

/-- The Padded Message needs 9 bytes more than the Message, and a whole number of Blocks. -/
theorem lt_padLen_iff {c : Config} (legal : c.Legal) (l : Nat) : c.msgCap < padLen l ↔ c.msgCap - 9 < l := by
  obtain ⟨blocks, least, -⟩ := legal
  constructor
  · intro exceeds
    by_contra fits
    have := padLen_least (l := l) blocks (by omega)
    omega
  · intro longer
    have := padLen_ge l
    omega

theorem State.raises_capacity_iff {i : Instr} {s : State} :
    s.Raises i .capacity ↔ (i = .pad ∨ i = .digest) ∧ s.cfg.msgCap < padLen s.msgLen.toNat := by
  constructor
  · intro raised
    cases raised with
    | pad exceeds => exact ⟨.inl rfl, exceeds⟩
    | digest exceeds => exact ⟨.inr rfl, exceeds⟩
  · rintro ⟨rfl | rfl, exceeds⟩
    · exact .pad exceeds
    · exact .digest exceeds

/-- Settles O9: the two forms of the condition agree (`lt_padLen_iff`), and only PAD and DIGEST raise CAPACITY. -/
theorem capacityExactlyWhenItDoesNotFit : Obligations.CapacityExactlyWhenItDoesNotFit := by
  intro s legal
  have exceeds_iff := lt_padLen_iff legal s.msgLen.toNat
  refine ⟨exceeds_iff, fun longer => ?_, fun i t run code => ?_⟩
  · have exceeds := exceeds_iff.2 longer
    exact ⟨(State.Raises.pad exceeds).exec_eq, (State.Raises.digest exceeds).exec_eq⟩
  · rw [← exceeds_iff, ← State.raises_capacity_iff, ← exec_err_iff (by decide)]
    exact ⟨t, run, code⟩

/-! ## SEQUENCE (R334) -/

theorem round_wellFormed_iff {n : BitVec 7} : (Instr.round n).wellFormed = true ↔ ¬ (n = 0 ∨ 64 < n.toNat) := by
  have zero : n = 0 ↔ n.toNat = 0 := BitVec.toNat_eq
  rw [Instr.wellFormed, decide_eq_true_iff, zero]
  omega

/-- Settles O10: row by row the table is `State.Raises`, and for a legal count ROUND is not ILLEGAL first. -/
theorem sequenceExactlyOutOfOrder : Obligations.SequenceExactlyOutOfOrder := by
  intro i s legal
  rw [exec_err_iff (by decide)]
  constructor
  · intro raised
    cases raised with
    | sched none_left => exact .inl ⟨.inl rfl, s.noBlock_iff.1 none_left⟩
    | compress none_left => exact .inl ⟨.inr rfl, s.noBlock_iff.1 none_left⟩
    | wvload empty => exact .inr (.inl ⟨rfl, empty⟩)
    | round _ out_of_order => exact .inr (.inr (.inl ⟨_, rfl, out_of_order⟩))
    | fold out_of_order => exact .inr (.inr (.inr ⟨rfl, out_of_order⟩))
  · rintro (⟨rfl | rfl, none_left⟩ | ⟨rfl, empty⟩ | ⟨n, rfl, out_of_order⟩ | ⟨rfl, out_of_order⟩)
    · exact .sched (s.noBlock_iff.2 none_left)
    · exact .compress (s.noBlock_iff.2 none_left)
    · exact .wvload empty
    · exact .round (round_wellFormed_iff.1 legal) out_of_order
    · exact .fold out_of_order

/-! ## ILLEGAL (R332) -/

/-- The words of R332. -/
def IllegalWord (c : Word) : Prop :=
  0xB ≤ c.toNat % 16 ∨ c.toNat / 2 ^ 15 ≠ 0 ∨ c.toNat / 2 ^ 4 % 2 ^ 4 ≠ 0 ∨
    (c.toNat % 16 = 5 ∧ (c.toNat / 2 ^ 8 % 2 ^ 7 = 0 ∨ 64 < c.toNat / 2 ^ 8 % 2 ^ 7)) ∨
    (c.toNat % 16 ≠ 5 ∧ c.toNat / 2 ^ 8 % 2 ^ 7 ≠ 0)

/-- The OP values of R141 without an operand are all but ROUND's, up to SRESET's. -/
theorem exists_mem_plainOps {op : Nat} : (∃ i, (op, i) ∈ plainOps) ↔ op < 0xB ∧ op ≠ 5 := by
  simp only [plainOps, List.mem_cons, List.not_mem_nil, Prod.mk.injEq, or_false, exists_or, exists_and_left, exists_eq,
    and_true]
  omega

/-- A word decodes exactly when R332 does not list it. -/
theorem exists_decode_eq_ok_iff {c : Word} : (∃ i, decode c = .ok i) ↔ ¬ IllegalWord c := by
  simp only [decode_eq_ok_iff_toNat, exists_and_left, exists_or, exists_mem_plainOps, exists_eq, and_true, IllegalWord]
  omega

/-- The decoder gives well-formed commands only (R142, R144). -/
theorem decode_wellFormed {c : Word} {i : Instr} (decoded : decode c = .ok i) : i.wellFormed = true := by
  obtain ⟨-, -, named⟩ := decode_eq_ok.1 decoded
  obtain ⟨-, plain⟩ | ⟨-, low, high, rfl⟩ := decodeOp_eq_ok.1 named
  · exact (by decide : ∀ p ∈ plainOps, p.2.wellFormed = true) _ plain
  · exact decide_eq_true ⟨low, high⟩

/-- No well-formed command raises ILLEGAL. -/
theorem State.not_raises_illegal {i : Instr} {s : State} (legal : i.wellFormed = true) : ¬ s.Raises i .illegal := by
  intro raised
  cases raised with
  | round_illegal illegal => exact round_wellFormed_iff.1 legal illegal

theorem State.completion_of_decode {i : Instr} {s : State} (decoded : decode s.pending = .ok i) :
    s.completion = exec i s := by
  rw [State.completion, decoded]

theorem State.completion_of_illegalWord {s : State} (illegal : IllegalWord s.pending) :
    s.completion = .next (s.complete .illegal) := by
  unfold State.completion
  split
  · exact absurd illegal (exists_decode_eq_ok_iff.1 ⟨_, ‹_›⟩)
  · rfl

/-- A word that decodes completes as its command, which is well-formed. -/
theorem State.illegalWord_of_completion {s t : State} (run : s.completion = .next t) (code : t.err = .illegal) :
    IllegalWord s.pending := by
  by_contra listed
  obtain ⟨i, decoded⟩ := exists_decode_eq_ok_iff.2 listed
  rw [State.completion_of_decode decoded] at run
  exact State.not_raises_illegal (decode_wellFormed decoded) ((exec_err_iff (by decide)).1 ⟨t, run, code⟩)

/-- With a command in flight and no other agent's turn first, the step is the completion, with the engine's turn, if it is
on the list, taken off it. -/
theorem step_of_completesNext {s : State} (next : s.CompletesNext) :
    step s = { s with turns := s.turns.tail }.completion := by
  obtain ⟨busy, turn⟩ := next
  have completes (ts : List Turn) : State.engineTurn { s with turns := ts } = { s with turns := ts }.completion :=
    if_pos busy
  unfold step
  split
  · rename_i none_left
    rw [none_left, ← completes, List.tail_nil, ← none_left]
  · rename_i x rest list
    obtain rfl : x = .engine := by simpa [list] using turn
    rw [list, ← completes]
    rfl

/-- Settles O8: `step_of_completesNext`, with PENDING illegal in the one direction and ILLEGAL recorded in the other. -/
theorem illegalWordsRecordIllegal : Obligations.IllegalWordsRecordIllegal := by
  intro s next
  rw [step_of_completesNext next]
  exact ⟨State.completion_of_illegalWord (s := { s with turns := s.turns.tail }), fun _ =>
    State.illegalWord_of_completion⟩

end Sys2Proof.Machine
end

section
/-! PROOFS. The interrupt output and the overrun (60_exceptions.md R337, R339). -/

namespace Sys2Proof.Machine

/-! ## What a completion does to DONE_IE, OVR and irq -/

/-- Of the commands only SRESET writes DONE_IE and OVR (R57, R62). -/
theorem exec_doneIe_ovr {i : Instr} {s t : State} (run : exec i s = .next t) (other : i ≠ .sreset) :
    t.doneIe = s.doneIe ∧ t.ovr = s.ovr := by
  rcases exec_raises_or_finishes run with ⟨c, -, rfl⟩ | ⟨u, rfl, kept⟩
  · exact ⟨rfl, rfl⟩
  · exact kept other

theorem completion_doneIe_ovr {s t : State} (run : s.completion = .next t) (other : decode s.pending ≠ .ok .sreset) :
    t.doneIe = s.doneIe ∧ t.ovr = s.ovr := by
  rcases State.completion_cases run with ⟨i, decoded, run⟩ | rfl
  · exact exec_doneIe_ovr run fun sreset => other (sreset ▸ decoded)
  · exact ⟨rfl, rfl⟩

/-- A completion sets DONE, so irq is DONE_IE after it (R69). -/
theorem irq_of_completed {i : Instr} {s t : State} (run : exec i s = .next t ∨ s.completion = .next t) :
    t.irq = t.doneIe := by
  obtain ⟨-, done, -⟩ := errorsChangeNothing i s t run
  rw [State.irq, done, Bool.and_true]

/-- SRESET clears DONE_IE. -/
theorem exec_sreset_irq {s t : State} (run : exec .sreset s = .next t) : t.irq = false := by
  rw [finish_eq_next.1 run]
  rfl

theorem exec_irq {i : Instr} {s t : State} (run : exec i s = .next t) :
    t.irq = (s.doneIe && decide (i ≠ .sreset)) := by
  by_cases sreset : i = .sreset
  · subst sreset
    rw [exec_sreset_irq run]
    simp
  · rw [irq_of_completed (.inl run), (exec_doneIe_ovr run sreset).1]
    simp [sreset]

theorem completion_irq {s t : State} (run : s.completion = .next t) :
    (decode s.pending ≠ .ok .sreset → t.irq = s.doneIe) ∧ (decode s.pending = .ok .sreset → t.irq = false) := by
  constructor
  · intro other
    rw [irq_of_completed (i := .nop) (.inr run), (completion_doneIe_ovr run other).1]
  · intro sreset
    rw [State.completion_of_decode sreset] at run
    exact exec_sreset_irq run

/-! ## What a transaction does to them -/

theorem accessTarget_write_irqEnOffset (c : Config) :
    accessTarget c .write (c.base + 0x008) .word = some .irqEn :=
  accessTarget_of_region (fun _ => rfl) rfl rfl

/-- A write to STATUS is a word write to its offset. -/
theorem accessTarget_write_status {c : Config} {addr : Nat} {size : Size}
    (target : accessTarget c .write addr size = some .status) : size = .word ∧ addr = c.base + 0x004 := by
  rcases accessTarget_write_cases target with locked | ⟨-, place⟩ | ⟨other, -⟩
  · cases locked
  · exact place
  · cases other

/-- A write to IRQ_EN is a word write to its offset. -/
theorem accessTarget_write_irqEn {c : Config} {addr : Nat} {size : Size}
    (target : accessTarget c .write addr size = some .irqEn) : size = .word ∧ addr = c.base + 0x008 := by
  rcases accessTarget_write_cases target with locked | ⟨other, -⟩ | ⟨-, place⟩
  · cases locked
  · cases other
  · exact place

/-- A transaction that is no performed write leaves irq and does not clear OVR. -/
theorem State.serve_irq_ovr_cases (s : State) (x : BusTxn) :
    ((s.serve x).irq = s.irq ∧ (s.ovr = true → (s.serve x).ovr = true)) ∨
    (∃ addr size v r, x = .write addr size v ∧ accessTarget s.cfg .write addr size = some r ∧
      (s.busy = false ∨ lockedTarget r = false) ∧ s.serve x = (s.writeTarget size v r).answer s.busy .writeOk) := by
  cases x with
  | read addr size =>
    refine .inl ?_
    rw [State.serve, s.serveRead_frame]
    exact ⟨rfl, id⟩
  | write addr size v =>
    rw [State.serve]
    rcases s.serveWrite_cases addr size v with ⟨-, error⟩ | ⟨_, -, -, -, dropped⟩ |
      ⟨r, target, unlocked, performed⟩
    · rw [error]
      exact .inl ⟨rfl, id⟩
    · rw [dropped]
      exact .inl ⟨rfl, fun _ => rfl⟩
    · exact .inr ⟨addr, size, v, r, rfl, target, unlocked, performed⟩

/-- OVR falls by a write of 1 to its bit in STATUS only (R57). -/
theorem State.serve_ovr_falls {s : State} {x : BusTxn} (high : s.ovr = true) (low : (s.serve x).ovr = false) :
    ∃ v : Word, x = .write (s.cfg.base + 0x004) .word v ∧ v.getLsbD 5 = true := by
  rcases s.serve_irq_ovr_cases x with ⟨-, kept⟩ | ⟨addr, size, v, r, rfl, target, -, performed⟩
  · simp [kept high] at low
  · rw [performed] at low
    cases r with
    | status =>
      obtain ⟨rfl, rfl⟩ := accessTarget_write_status target
      exact ⟨v, rfl, by simpa [State.writeTarget, high] using low⟩
    | _ => exact nomatch high.symm.trans low

/-- The three writes that make irq fall: an issue, a write of 1 to DONE's bit in STATUS, and of 0 to DONE_IE (R69). -/
theorem State.serve_irq_falls {s : State} {x : BusTxn} (high : s.irq = true) (low : (s.serve x).irq = false) :
    ∃ v : Word, (s.busy = false ∧ x = .write s.cfg.base .word v) ∨
      (x = .write (s.cfg.base + 0x004) .word v ∧ v.getLsbD 1 = true) ∨
      (x = .write (s.cfg.base + 0x008) .word v ∧ v.getLsbD 0 = false) := by
  rcases s.serve_irq_ovr_cases x with ⟨kept, -⟩ | ⟨addr, size, v, r, rfl, target, unlocked, performed⟩
  · simp [kept, high] at low
  · rw [performed] at low
    refine ⟨v, ?_⟩
    obtain ⟨doneIe, done⟩ : s.doneIe = true ∧ s.done = true := by simpa [State.irq] using high
    cases r with
    | ctrl =>
      obtain ⟨rfl, rfl⟩ := accessTarget_write_ctrl target
      exact .inl ⟨by simpa [lockedTarget] using unlocked, rfl⟩
    | status =>
      obtain ⟨rfl, rfl⟩ := accessTarget_write_status target
      exact .inr (.inl ⟨rfl, by simpa [State.irq, State.writeTarget, doneIe, done] using low⟩)
    | irqEn =>
      obtain ⟨rfl, rfl⟩ := accessTarget_write_irqEn target
      exact .inr (.inr ⟨rfl, by simpa [State.irq, State.writeTarget, done] using low⟩)
    | _ => exact nomatch high.symm.trans low

/-! ## What a step does, agent by agent -/

/-- With no command in flight the engine has no step (R221; log 13). -/
theorem State.engineTurn_of_idle {s : State} (idle : s.busy = false) : s.engineTurn = .next s :=
  if_neg (by simp [idle])

/-- Everything a step can do: the completion of a command, a transaction, a hardware reset, or an idle turn. -/
theorem step_agents {s t : State} (run : step s = .next t) :
    (s.CompletesNext ∧ { s with turns := s.turns.tail }.completion = .next t) ∨
    (∃ x rest, s.turns = .host x :: rest ∧ t = { s with turns := rest }.serve x) ∨
    (s.ResetsNext ∧ t = { s with turns := s.turns.tail }.hardReset) ∨
    t = { s with turns := s.turns.tail } := by
  by_cases completes : s.CompletesNext
  · rw [step_of_completesNext completes] at run
    exact .inl ⟨completes, run⟩
  have idle_of (turn : s.turns = [] ∨ s.turns.head? = some .engine) : s.busy = false := by
    simpa [turn] using completes
  refine .inr ?_
  rcases step_cases run with ⟨none_left, turn⟩ | ⟨x, rest, list, turn⟩
  · rw [State.engineTurn_of_idle (idle_of (.inl none_left))] at turn
    cases turn
    refine .inr (.inr ?_)
    rw [none_left, List.tail_nil, ← none_left]
  · have first : s.turns.head? = some x := by rw [list, List.head?_cons]
    cases x with
    | host x =>
      cases turn
      exact .inl ⟨x, rest, list, rfl⟩
    | reset =>
      cases turn
      refine .inr (.inl ⟨first, ?_⟩)
      rw [list, List.tail_cons]
    | engine =>
      rw [State.take, State.engineTurn_of_idle (s := { s with turns := rest }) (idle_of (.inr first))] at turn
      cases turn
      refine .inr (.inr ?_)
      rw [list, List.tail_cons]

/-- irq falls by the events of R339 only. -/
theorem step_irq_falls {s t : State} (run : step s = .next t) (high : s.irq = true) (low : t.irq = false) :
    s.ResetsNext ∨ (s.CompletesNext ∧ decode s.pending = .ok .sreset) ∨
    ∃ (rest : List Turn) (v : Word),
      (s.busy = false ∧ s.turns = .host (.write s.cfg.base .word v) :: rest) ∨
        (s.turns = .host (.write (s.cfg.base + 4) .word v) :: rest ∧ v.getLsbD 1 = true) ∨
        (s.turns = .host (.write (s.cfg.base + 8) .word v) :: rest ∧ v.getLsbD 0 = false) := by
  rcases step_agents run with ⟨next, completed⟩ | ⟨x, rest, list, rfl⟩ | ⟨resets, -⟩ | rfl
  · refine .inr (.inl ⟨next, ?_⟩)
    by_contra other
    have kept : t.irq = s.doneIe := (completion_irq completed).1 other
    have enabled : s.doneIe = true := (Bool.and_eq_true_iff.1 high).1
    exact nomatch enabled.symm.trans (kept.symm.trans low)
  · obtain ⟨v, write⟩ := State.serve_irq_falls (s := { s with turns := rest }) high low
    refine .inr (.inr ⟨rest, v, ?_⟩)
    rw [list]
    rcases write with ⟨idle, rfl⟩ | ⟨rfl, one⟩ | ⟨rfl, zero⟩
    · exact .inl ⟨idle, rfl⟩
    · exact .inr (.inl ⟨rfl, one⟩)
    · exact .inr (.inr ⟨rfl, zero⟩)
  · exact .inl resets
  · exact nomatch high.symm.trans low

/-- OVR falls by the events of R337 only. -/
theorem step_ovr_falls {s t : State} (high : s.ovr = true) (run : step s = .next t) (low : t.ovr = false) :
    s.ResetsNext ∨
    (∃ (rest : List Turn) (v : Word), s.turns = .host (.write (s.cfg.base + 0x004) .word v) :: rest ∧
      v.getLsbD 5 = true) ∨
    (s.CompletesNext ∧ decode s.pending = .ok .sreset) := by
  rcases step_agents run with ⟨next, completed⟩ | ⟨x, rest, list, rfl⟩ | ⟨resets, -⟩ | rfl
  · refine .inr (.inr ⟨next, ?_⟩)
    by_contra other
    have kept : t.ovr = s.ovr := (completion_doneIe_ovr completed other).2
    exact nomatch high.symm.trans (kept.symm.trans low)
  · obtain ⟨v, rfl, one⟩ := State.serve_ovr_falls (s := { s with turns := rest }) high low
    exact .inr (.inl ⟨rest, v, list, one⟩)
  · exact .inl resets
  · exact nomatch high.symm.trans low

/-! ## The obligations -/

/-- Settles O22: DONE = 1 after a completion and 0 after an issue, a write of 1 to its bit and a reset; over a step,
`step_irq_falls`. -/
theorem irqIsRaisedByCompletionAndCleared : Obligations.IrqIsRaisedByCompletionAndCleared := by
  refine ⟨fun _ => rfl, fun _ _ _ => exec_irq, fun _ _ => completion_irq, fun s v one => ?_, fun s v idle => ?_,
    fun s v zero => ?_, fun _ => rfl, fun _ _ => step_irq_falls⟩
  · rw [State.serveWrite_of_target v (accessTarget_write_statusOffset s.cfg) (.inr rfl)]
    simp [State.irq, State.writeTarget, one]
  · exact ((issueStoresTheWord s v).1 idle).2
  · rw [State.serveWrite_of_target v (accessTarget_write_irqEnOffset s.cfg) (.inr rfl)]
    have disabled : ((s.writeTarget .word v .irqEn).answer s.busy .writeOk).doneIe = false := zero
    rw [State.irq, disabled, Bool.false_and]

/-- Settles O56: at an offset outside STATUS and IRQ_EN a write's target is locked, so it is dropped; over a step,
`step_ovr_falls`. -/
theorem overrunDropsTheWrite : Obligations.OverrunDropsTheWrite := by
  refine ⟨fun s addr size v busy accepted range => ?_, fun _ _ => step_ovr_falls⟩
  obtain ⟨r, target⟩ := Option.isSome_iff_exists.1 accepted
  have locked : lockedTarget r = true := by
    rcases accessTarget_write_cases target with locked | ⟨-, -, status⟩ | ⟨-, -, irqEn⟩
    · exact locked
    · omega
    · omega
  exact State.serveWrite_dropped v target busy locked

end Sys2Proof.Machine
end

section
/-! PROOFS. The encoder against the decoder (30_encoding.md R140 to R145), and the sample words of 95_test_vectors.md
section 2.7. -/

namespace Sys2Proof

/-- The decoder finds in a command word the fields it was made from (R140). -/
theorem decode_commandWord (n : BitVec 7) (op : BitVec 4) : decode (commandWord n op) = decodeOp op.toNat n := by
  have number := commandWord_toNat n op
  have op_lt := op.isLt
  have n_lt := n.isLt
  have res1 : fieldRes1 (commandWord n op) = 0 := BitVec.eq_of_toNat_eq (by rw [fieldRes1_toNat, number]; simp; omega)
  have res0 : fieldRes0 (commandWord n op) = 0 := BitVec.eq_of_toNat_eq (by rw [fieldRes0_toNat, number]; simp; omega)
  have operand : fieldN (commandWord n op) = n := BitVec.eq_of_toNat_eq (by rw [fieldN_toNat, number]; omega)
  have opcode : (fieldOp (commandWord n op)).toNat = op.toNat := by rw [fieldOp_toNat, number]; omega
  rw [decode, if_neg (by simp [res1, res0]), opcode, operand]

/-- Settles O1: a command word gives back OP and N (`decode_commandWord`), and the opcode map names the command; ROUND's
N is legal because the command is well-formed. -/
theorem decodeEncodeRoundTrip : Obligations.DecodeEncodeRoundTrip := by
  intro i legal
  cases i with
  | round n =>
    obtain ⟨low, high⟩ : 1 ≤ n.toNat ∧ n.toNat ≤ 64 := by simpa [Instr.wellFormed] using legal
    exact (decode_commandWord n 5).trans (roundCommand_eq_ok.2 ⟨low, high, rfl⟩)
  | _ => exact decode_commandWord 0 _

/-- Settles O3: twelve closed words. -/
theorem sampleWordsDecode : Obligations.SampleWordsDecode := by
  unfold Obligations.SampleWordsDecode
  decide

end Sys2Proof
end

section
/-! PROOFS. Everything a command can do, as a relation on states; the engine's step and the host's turn
(41_control.md R221 to R224, 20_memory.md R115). -/

namespace Sys2Proof.Machine

/-! ## The commands that run -/

/-- What SCHED writes before its completion. -/
def State.schedWith (s : State) (b : Vector Byte 64) : State :=
  { s with w := schedule b, roundCtr := 0, phase := .scheduled }

/-- What ROUND N writes before its completion. -/
def State.roundBy (s : State) (n : Nat) : State :=
  { s with
    wv := rounds s.w s.roundCtr.toNat n s.wv
    roundCtr := BitVec.ofNat 32 (s.roundCtr.toNat + n) }

/-- What COMPRESS writes before its completion. -/
def State.compressWith (s : State) (b : Vector Byte 64) : State :=
  { s.withBlock b with blkIdx := s.blkIdx + 1, roundCtr := 0, phase := .empty }

/-- The commands that raise no error: each with the condition on the state it starts from, and the state it leaves to
completion. -/
inductive State.Finishes (s : State) : Instr → State → Prop where
  | nop : s.Finishes .nop s
  | init : s.Finishes .init s.loadIv
  | pad : padLen s.msgLen.toNat ≤ s.cfg.msgCap → s.Finishes .pad s.paddedState
  | sched {b : Vector Byte 64} : s.noBlock = false → s.memRead (64 * s.blkIdx.toNat) 64 = some b →
      s.Finishes .sched (s.schedWith b)
  | wvload : s.phase ≠ .empty → s.Finishes .wvload s.seedWv
  | round {n : BitVec 7} : ¬ (n = 0 ∨ 64 < n.toNat) → s.phase = .rounding → s.roundCtr.toNat + n.toNat ≤ 64 →
      s.Finishes (.round n) (s.roundBy n.toNat)
  | fold : s.phase = .rounding → s.roundCtr = 64 → s.Finishes .fold s.foldWv
  | compress {b : Vector Byte 64} : s.noBlock = false → s.memRead (64 * s.blkIdx.toNat) 64 = some b →
      s.Finishes .compress (s.compressWith b)
  | format : s.Finishes .format s.formatHex
  | digest : padLen s.msgLen.toNat ≤ s.cfg.msgCap → s.Finishes .digest s.digestedState
  | sreset : s.Finishes .sreset s.softReset

theorem exec_digest_of_not_fits {s : State} (exceeds : s.cfg.msgCap < padLen s.msgLen.toNat) :
    exec .digest s = .next (s.complete .capacity) :=
  (execDigest_eq s).trans (if_pos exceeds)

theorem exec_digest_of_fits {s : State} (fits : padLen s.msgLen.toNat ≤ s.cfg.msgCap) :
    exec .digest s = .next (s.digestedState.complete .ok) :=
  (execDigest_eq s).trans (if_neg (by omega))

/-- A command that finishes completes its state with code 0. -/
theorem State.Finishes.exec_eq {i : Instr} {s u : State} (finishes : s.Finishes i u) :
    exec i s = .next (u.complete .ok) := by
  cases finishes with
  | nop => exact exec_nop s
  | init => exact exec_init s
  | pad fits => exact exec_pad_of_fits fits
  | sched some_left read => exact execSched_of_memRead some_left read
  | wvload under_way => exact exec_wvload_of_ne_empty under_way
  | round legal rounding room =>
    exact (if_neg legal).trans (if_neg (by simpa [rounding] using room))
  | fold rounding all => exact exec_fold_of_all_rounds rounding (by rw [all]; rfl)
  | compress some_left read => exact execCompress_of_memRead some_left read
  | format => exact exec_format s
  | digest fits => exact exec_digest_of_fits fits
  | sreset => exact exec_sreset s

/-- Everything a command can do: it raises an error, or it finishes. -/
theorem exec_raises_or_finishes_with {i : Instr} {s t : State} (run : exec i s = .next t) :
    (∃ c, s.Raises i c ∧ t = s.complete c) ∨ (∃ u, s.Finishes i u ∧ t = u.complete .ok) := by
  have of_raises {c : ResultCode} (raised : s.Raises i c) : ∃ c, s.Raises i c ∧ t = s.complete c :=
    ⟨c, raised, (Host.Outcome.next.inj (raised.exec_eq.symm.trans run)).symm⟩
  have of_finishes {u : State} (finishes : s.Finishes i u) : ∃ u, s.Finishes i u ∧ t = u.complete .ok :=
    ⟨u, finishes, (Host.Outcome.next.inj (finishes.exec_eq.symm.trans run)).symm⟩
  cases i with
  | nop => exact .inr (of_finishes .nop)
  | init => exact .inr (of_finishes .init)
  | format => exact .inr (of_finishes .format)
  | sreset => exact .inr (of_finishes .sreset)
  | pad => exact (lt_or_ge _ _).imp (of_raises <| .pad ·) (of_finishes <| .pad ·)
  | digest => exact (lt_or_ge _ _).imp (of_raises <| .digest ·) (of_finishes <| .digest ·)
  | sched =>
    rcases execSched_cases run with ⟨none_left, -⟩ | ⟨some_left, b, read, -⟩
    · exact .inl (of_raises (.sched none_left))
    · exact .inr (of_finishes (.sched some_left read))
  | compress =>
    rcases execCompress_cases run with ⟨none_left, -⟩ | ⟨some_left, b, read, -⟩
    · exact .inl (of_raises (.compress none_left))
    · exact .inr (of_finishes (.compress some_left read))
  | wvload => exact (em _).imp (of_raises <| .wvload ·) (of_finishes <| .wvload ·)
  | round n =>
    rcases execRound_cases run with ⟨illegal, -⟩ | ⟨legal, out_of_order, -⟩ | ⟨legal, rounding, room, -⟩
    · exact .inl (of_raises (.round_illegal illegal))
    · exact .inl (of_raises (.round legal out_of_order))
    · exact .inr (of_finishes (.round legal rounding room))
  | fold =>
    rcases execFold_cases run with ⟨out_of_order, -⟩ | ⟨rounding, all, -⟩
    · exact .inl (of_raises (.fold (by simpa [BitVec.toNat_eq] using out_of_order)))
    · exact .inr (of_finishes (.fold rounding all))

/-! ## The step -/

/-- The engine's turn at the head of the list, or none left at all, completes the command in flight (R221). -/
theorem step_of_decoded {s : State} {i : Instr} (next : s.CompletesNext) (decoded : decode s.pending = .ok i) :
    step s = exec i { s with turns := s.turns.tail } :=
  (step_of_completesNext next).trans (State.completion_of_decode (s := { s with turns := s.turns.tail }) decoded)

/-- Settles O4: each of the three states completes next, and PENDING decodes to the command. -/
theorem stepRunsTheDecodedCommand : Obligations.StepRunsTheDecodedCommand := by
  refine ⟨fun s rest i busy list decoded => ?_, fun s i busy none_left decoded => ?_, fun s nbits w i decoded => ?_⟩
  · rw [step_of_decoded ⟨busy, .inr (by rw [list]; rfl)⟩ decoded, list, List.tail_cons]
  · rw [step_of_decoded ⟨busy, .inl none_left⟩ decoded, none_left, List.tail_nil, ← none_left]
  · exact step_of_decoded (s := s.withFetchWord nbits w) ⟨rfl, .inr rfl⟩ (decode_of_decodeTableWord decoded)

/-- A coming turn is taken off the list, then it moves (R115). -/
theorem step_of_cons {s : State} {x : Turn} {rest : List Turn} (list : s.turns = x :: rest) :
    step s = State.take { s with turns := rest } x := by
  rw [step, list]

/-- Settles O5: `step_of_cons` for the three kinds of turn; an engine with BUSY = 0 has no step. -/
theorem stepTakesTheFirstTurn : Obligations.StepTakesTheFirstTurn := by
  refine fun s rest => ⟨fun x => step_of_cons, step_of_cons, fun idle list => ?_, fun idle none_left => ?_⟩
  · rw [step_of_cons list]
    exact State.engineTurn_of_idle (s := { s with turns := rest }) idle
  · rw [step, none_left]
    exact State.engineTurn_of_idle idle

end Sys2Proof.Machine
end

section
/-! PROOFS. The invariant of 10_state.md R66: reset meets it, every step keeps it, and from it every step gives a next
state. -/

namespace Sys2Proof.Machine

/-! ## States that meet the invariant because another does -/

/-- The invariant speaks of the parameters, the buffer, the lengths, the sequencer and BUSY with DONE: a state that
keeps these and has the sequencer's four relations meets it. -/
theorem State.Inv.of_sequencer {s t : State} (inv : s.Inv)
    (frame : t = { s with
      h := t.h, wv := t.wv, w := t.w, hex := t.hex, blkIdx := t.blkIdx, roundCtr := t.roundCtr, phase := t.phase })
    (blk_le : t.blkIdx ≤ t.nblk) (round_zero : t.phase ≠ .rounding → t.roundCtr = 0) (round_le : t.roundCtr ≤ 64)
    (phase_padded : t.phase ≠ .empty → t.padded = true ∧ t.blkIdx < t.nblk) : t.Inv := by
  refine ⟨?_, ?_, blk_le, round_zero, round_le, phase_padded, ?_, ?_, ?_⟩ <;> rw [frame]
  · exact inv.legal
  · exact inv.mem
  · exact inv.padded_nblk
  · exact inv.unpadded
  · exact inv.busy_done

/-- With the sequencer at rest (CPHASE = EMPTY, ROUNDCTR = 0) only BLKIDX ≤ NBLK is left of its relations. -/
theorem State.Inv.of_rest {s t : State} (inv : s.Inv)
    (frame : t = { s with
      h := t.h, wv := t.wv, w := t.w, hex := t.hex, blkIdx := t.blkIdx, roundCtr := 0, phase := .empty })
    (blk_le : t.blkIdx ≤ t.nblk) : t.Inv := by
  have phase : t.phase = .empty := by rw [frame]
  have roundCtr : t.roundCtr = 0 := by rw [frame]
  refine inv.of_sequencer (by rw [roundCtr, phase]; exact frame) blk_le (fun _ => roundCtr) ?_ (absurd phase)
  rw [roundCtr]
  decide

/-- Of the elements of a state that the invariant does not speak of, any may change, and DONE may fall. -/
theorem State.Inv.of_frame {s t : State} (inv : s.Inv)
    (frame : t = { s with
      h := t.h, hex := t.hex, err := t.err, ovr := t.ovr, doneIe := t.doneIe, done := s.done && t.done,
      draws := t.draws, turns := t.turns, replies := t.replies }) : t.Inv := by
  rw [frame]
  exact ⟨inv.legal, inv.mem, inv.blk_le, inv.round_zero, inv.round_le, inv.phase_padded, inv.padded_nblk, inv.unpadded,
    fun busy => by rw [inv.busy_done busy, Bool.false_and]⟩

/-- A state without a padded Message, the sequencer at rest at Block 0: what a reset and a write of MSG_LEN leave. -/
theorem State.Inv.of_restart {s : State} (legal : s.cfg.Legal) (mem : s.MemInv) (nblk : s.nblk = 0)
    (blkIdx : s.blkIdx = 0) (roundCtr : s.roundCtr = 0) (padded : s.padded = false) (phase : s.phase = .empty)
    (busy_done : s.busy = true → s.done = false) : s.Inv where
  legal := legal
  mem := mem
  blk_le := by rw [blkIdx, nblk]; exact BitVec.le_refl _
  round_zero := fun _ => roundCtr
  round_le := by rw [roundCtr]; decide
  phase_padded := absurd phase
  padded_nblk := fun h => nomatch padded.symm.trans h
  unpadded := fun _ => nblk
  busy_done := busy_done

/-! ## The commands keep the invariant -/

/-- A Block left is one of a padded Message, so BLKIDX has room to count it. -/
theorem State.noBlock_eq_false (s : State) :
    s.noBlock = false ↔ s.padded = true ∧ s.blkIdx < s.nblk := by
  simp [State.noBlock]

theorem State.Inv.paddedState {s : State} (inv : s.Inv) (fits : padLen s.msgLen.toNat ≤ s.cfg.msgCap) :
    s.paddedState.Inv where
  legal := inv.legal
  mem := inv.mem.writeBytes (by have := padLen_ge s.msgLen.toNat; rw [padBytes_length]; omega)
  blk_le := Nat.zero_le _
  round_zero := fun _ => rfl
  round_le := by show (0 : Word) ≤ 64; decide
  phase_padded := absurd rfl
  padded_nblk := fun _ => by
    have number := nblkOf_toNat inv.legal fits
    have positive := nblkOf_pos s.msgLen.toNat
    have length := padLen_eq s.msgLen.toNat
    refine ⟨number, BitVec.le_def.2 (number.symm ▸ positive), ?_⟩
    show nblkOf s.msgLen.toNat * 64 ≤ s.cfg.msgCap
    omega
  unpadded := nofun
  busy_done := inv.busy_done

/-- What a command leaves to its completion meets the invariant. -/
theorem State.Finishes.inv {i : Instr} {s u : State} (finishes : s.Finishes i u) (inv : s.Inv) : u.Inv := by
  cases finishes with
  | nop => exact inv
  | init => exact inv.of_rest rfl (Nat.zero_le _)
  | pad fits => exact inv.paddedState fits
  | sched some_left read =>
    exact inv.of_sequencer rfl inv.blk_le (fun _ => rfl) (by show (0 : Word) ≤ 64; decide)
      fun _ => s.noBlock_eq_false.1 some_left
  | wvload under_way =>
    exact inv.of_sequencer rfl inv.blk_le (absurd rfl) (by show (0 : Word) ≤ 64; decide)
      fun _ => inv.phase_padded under_way
  | round legal rounding room =>
    refine inv.of_sequencer rfl inv.blk_le (absurd rounding) ?_ inv.phase_padded
    show BitVec.ofNat 32 _ ≤ 64
    rw [BitVec.le_def, BitVec.toNat_ofNat]
    exact (Nat.mod_le _ _).trans room
  | fold rounding all =>
    obtain ⟨-, below⟩ := inv.phase_padded (by simp [rounding])
    exact inv.of_rest rfl (by show s.blkIdx + 1 ≤ s.nblk; bv_omega)
  | compress some_left read =>
    obtain ⟨-, below⟩ := s.noBlock_eq_false.1 some_left
    exact inv.of_rest rfl (by show s.blkIdx + 1 ≤ s.nblk; bv_omega)
  | format => exact inv.of_frame (by simp [State.formatHex])
  | digest fits => exact (inv.paddedState fits).of_rest rfl (BitVec.le_refl _)
  | sreset => exact .of_restart inv.legal inv.mem rfl rfl rfl rfl rfl nofun

theorem exec_keeps_inv {i : Instr} {s t : State} (inv : s.Inv) (run : exec i s = .next t) : t.Inv := by
  rcases exec_raises_or_finishes_with run with ⟨c, -, rfl⟩ | ⟨u, finishes, rfl⟩
  · exact inv.complete c
  · exact (finishes.inv inv).complete .ok

theorem State.completion_keeps_inv {s t : State} (inv : s.Inv) (run : s.completion = .next t) : t.Inv := by
  rcases State.completion_cases run with ⟨i, -, run⟩ | rfl
  · exact exec_keeps_inv inv run
  · exact inv.complete .illegal

/-! ## The host and the reset input keep the invariant -/

/-- A write that is performed; an issue needs no more than DONE = 0. -/
theorem State.Inv.writeTarget {s : State} {addr : Nat} {size : Size} {r : Region} (inv : s.Inv) (v : Word)
    (target : accessTarget s.cfg .write addr size = some r) : (s.writeTarget size v r).Inv := by
  cases r with
  | ctrl =>
    exact ⟨inv.legal, inv.mem, inv.blk_le, inv.round_zero, inv.round_le, inv.phase_padded, inv.padded_nblk,
      inv.unpadded, fun _ => rfl⟩
  | msgLen => exact .of_restart inv.legal inv.mem rfl rfl rfl rfl rfl inv.busy_done
  | msg k =>
    exact ⟨inv.legal, inv.mem.writeBytes (laneBytes_inside inv.legal target), inv.blk_le, inv.round_zero, inv.round_le,
      inv.phase_padded, inv.padded_nblk, inv.unpadded, inv.busy_done⟩
  | status => exact inv.of_frame (by simp [State.writeTarget, State.writeStatus])
  | irqEn => exact inv.of_frame (by simp [State.writeTarget, State.writeIrqEn])
  | h i => exact inv.of_frame (by simp [State.writeTarget])
  | nblk | blkIdx | roundCtr | capacity | id | wv | w | hex => exact inv

theorem State.Inv.serve {s : State} (inv : s.Inv) (x : BusTxn) : (s.serve x).Inv := by
  cases x with
  | read addr size => exact inv.of_frame (by rw [State.serve, s.serveRead_frame]; simp)
  | write addr size v =>
    rw [State.serve]
    rcases s.serveWrite_cases addr size v with ⟨-, error⟩ | ⟨_, -, -, -, dropped⟩ | ⟨r, target, -, performed⟩
    · rw [error]
      exact inv.answer _ _
    · rw [dropped]
      exact State.Inv.answer (inv.of_frame (by simp)) _ _
    · rw [performed]
      exact (inv.writeTarget v target).answer _ _

theorem State.Inv.hardReset {s : State} (inv : s.Inv) : s.hardReset.Inv :=
  .of_restart inv.legal ⟨List.Pairwise.nil, nofun⟩ rfl rfl rfl rfl rfl nofun

/-- Settles O13: each agent's step keeps the invariant: a completion, a transaction, a hardware reset, an idle turn. -/
theorem everyStepKeepsTheInvariant : Obligations.EveryStepKeepsTheInvariant := by
  intro s t inv run
  rcases step_agents run with ⟨-, completed⟩ | ⟨x, rest, -, rfl⟩ | ⟨-, rfl⟩ | rfl
  · exact State.completion_keeps_inv (inv.with_turns _) completed
  · exact (inv.with_turns rest).serve x
  · exact (inv.with_turns _).hardReset
  · exact inv.with_turns _

end Sys2Proof.Machine
end

section
/-! PROOFS. Reset (10_state.md R68), progress, the characters of HEX, and the reachable states. -/

namespace Sys2Proof.Machine

/-! ## Reset -/

/-- Settles O11: the fields of `State.softReset` are the table of R68; STATUS has the length mode's bit alone, and a
buffer without a written byte shows the draws of the new reset. -/
theorem resetValues : Obligations.ResetValues := by
  intro s
  refine ⟨fun t left => ?_, rfl, ?_, fun _ => rfl, s.softReset.complete .ok, exec_sreset s, rfl, fun _ => rfl⟩
  · have zeros (n : Nat) (i : Fin n) : (Vector.replicate n (0 : Word))[i] = 0 := by simp
    have zero_bytes (i : Fin 64) : (Vector.replicate 64 (0 : Byte))[i] = 0 := by simp
    rcases left.imp_right finish_eq_next.1 with rfl | rfl
    all_goals
      exact ⟨rfl, zeros 8, zeros 64, zero_bytes, rfl, rfl, rfl, rfl, rfl, rfl, rfl, rfl, rfl, rfl, rfl, rfl, rfl⟩
  · have status : s.hardReset.statusWord.toNat = (lenModeBit s.cfg.lenMode).toNat * 2 ^ 9 :=
      s.softReset_statusWord_toNat
    refine BitVec.eq_of_toNat_eq (status.trans ?_)
    cases s.cfg.lenMode <;> rfl

theorem State.resetOf_inv {c : Config} (legal : c.Legal) : (State.resetOf c).Inv :=
  .of_restart legal ⟨List.Pairwise.nil, nofun⟩ rfl rfl rfl rfl rfl nofun

theorem Config.reference_legal : Config.reference.Legal := by decide

/-- Settles O12: a reset leaves no padded Message and the sequencer at rest. -/
theorem resetMeetsTheInvariant : Obligations.ResetMeetsTheInvariant :=
  ⟨fun _ legal => ⟨State.resetOf_inv legal, .inl rfl⟩, Config.reference_legal,
    State.resetOf_inv Config.reference_legal, rfl, rfl, rfl, rfl, rfl⟩

/-! ## Progress -/

/-- A command whose condition fails raises an error, and one that reads MSG finds its Block inside the buffer (R121). -/
theorem State.Inv.exec_total {s : State} (inv : s.Inv) (i : Instr) : ∃ t, exec i s = .next t := by
  have of_finishes {u : State} (finishes : s.Finishes i u) : ∃ t, exec i s = .next t := ⟨_, finishes.exec_eq⟩
  have of_raises {c : ResultCode} (raised : s.Raises i c) : ∃ t, exec i s = .next t := ⟨_, raised.exec_eq⟩
  cases i with
  | nop => exact of_finishes .nop
  | init => exact of_finishes .init
  | format => exact of_finishes .format
  | sreset => exact of_finishes .sreset
  | pad => exact (lt_or_ge _ _).elim (of_raises <| .pad ·) (of_finishes <| .pad ·)
  | digest => exact (lt_or_ge _ _).elim (of_raises <| .digest ·) (of_finishes <| .digest ·)
  | wvload => exact (em _).elim (of_raises <| .wvload ·) (of_finishes <| .wvload ·)
  | sched =>
    cases left : s.noBlock
    · exact of_finishes (.sched left (State.memRead_of_le (inv.block_inside left)))
    · exact of_raises (.sched left)
  | compress =>
    cases left : s.noBlock
    · exact of_finishes (.compress left (State.memRead_of_le (inv.block_inside left)))
    · exact of_raises (.compress left)
  | round n =>
    by_cases illegal : n = 0 ∨ 64 < n.toNat
    · exact of_raises (.round_illegal illegal)
    · by_cases out_of_order : s.phase ≠ .rounding ∨ 64 < s.roundCtr.toNat + n.toNat
      · exact of_raises (.round illegal out_of_order)
      · obtain ⟨rounding, room⟩ : s.phase = .rounding ∧ s.roundCtr.toNat + n.toNat ≤ 64 := by
          simpa using out_of_order
        exact of_finishes (.round illegal rounding room)
  | fold =>
    by_cases out_of_order : s.phase ≠ .rounding ∨ s.roundCtr.toNat ≠ 64
    · exact of_raises (.fold out_of_order)
    · obtain ⟨rounding, all⟩ : s.phase = .rounding ∧ s.roundCtr.toNat = 64 := by simpa using out_of_order
      exact of_finishes (.fold rounding (BitVec.eq_of_toNat_eq all))

theorem State.Inv.completion_total {s : State} (inv : s.Inv) : ∃ t, s.completion = .next t := by
  unfold State.completion
  split
  · exact inv.exec_total _
  · exact ⟨_, rfl⟩

theorem State.Inv.engineTurn_total {s : State} (inv : s.Inv) : ∃ t, s.engineTurn = .next t := by
  unfold State.engineTurn
  split
  · exact inv.completion_total
  · exact ⟨_, rfl⟩

/-- Settles O14: only the engine's turn could stop, and `State.Inv.engineTurn_total` rules that out. -/
theorem noStepStops : Obligations.NoStepStops := by
  intro s inv
  unfold step
  split
  · exact inv.engineTurn_total
  · rename_i x rest list
    cases x with
    | host x => exact ⟨_, rfl⟩
    | engine => exact (inv.with_turns rest).engineTurn_total
    | reset => exact ⟨_, rfl⟩

/-! ## The characters of HEX -/

/-- Every character of the hexadecimal Digest is in [0-9a-f] (R193). -/
theorem hexDigest_lowercase (h : Vector Word 8) (j : Fin 64) :
    (0x30 ≤ (hexDigest h)[j].toNat ∧ (hexDigest h)[j].toNat ≤ 0x39) ∨
      (0x61 ≤ (hexDigest h)[j].toNat ∧ (hexDigest h)[j].toNat ≤ 0x66) := by
  rw [hexDigest_getElem, hexChar_toNat]
  have := (nibbleOfWord h[j.val / 8] (j.val % 8)).isLt
  split <;> omega

/-- FORMAT and DIGEST write a hexadecimal Digest into HEX, SRESET zeros, and no other command writes it (R46). -/
theorem State.Finishes.hex {i : Instr} {s u : State} (finishes : s.Finishes i u) :
    u.hex = s.hex ∨ u.hex = Vector.replicate 64 0 ∨ ∃ h, u.hex = hexDigest h := by
  cases finishes with
  | format | digest => exact .inr (.inr ⟨_, rfl⟩)
  | sreset => exact .inr (.inl rfl)
  | _ => exact .inl rfl

theorem State.HexInv.of_hex {s t : State} (inv : s.HexInv)
    (hex : t.hex = s.hex ∨ t.hex = Vector.replicate 64 0 ∨ ∃ h, t.hex = hexDigest h) : t.HexInv := by
  rcases hex with kept | zeros | ⟨h, rendered⟩
  · unfold State.HexInv
    rw [kept]
    exact inv
  · exact .inl zeros
  · refine .inr fun b member => ?_
    rw [rendered] at member
    obtain ⟨j, inside, rfl⟩ := List.mem_iff_getElem.1 member
    have lowercase := hexDigest_lowercase h ⟨j, by simpa using inside⟩
    simpa [BitVec.le_def] using lowercase

theorem State.completion_hex {s t : State} (run : s.completion = .next t) :
    t.hex = s.hex ∨ t.hex = Vector.replicate 64 0 ∨ ∃ h, t.hex = hexDigest h := by
  rcases State.completion_cases run with ⟨i, -, run⟩ | rfl
  · rcases exec_raises_or_finishes_with run with ⟨c, -, rfl⟩ | ⟨u, finishes, rfl⟩
    · exact .inl rfl
    · exact finishes.hex
  · exact .inl rfl

/-- Settles O16: a step writes into HEX a hexadecimal Digest, zeros, or nothing. -/
theorem everyStepKeepsHexLowercase : Obligations.EveryStepKeepsHexLowercase := by
  intro s t inv run
  refine inv.of_hex ?_
  rcases step_agents run with ⟨-, completed⟩ | ⟨x, rest, -, rfl⟩ | ⟨-, rfl⟩ | rfl
  · exact State.completion_hex (s := { s with turns := s.turns.tail }) completed
  · obtain ⟨-, -, -, hex, -⟩ := State.serve_frame { s with turns := rest } x
    exact .inl hex
  · exact .inr (.inl rfl)
  · exact .inl rfl

/-- Settles O15: both invariants hold at reset, every step keeps them, and the coming turns are no part of them. -/
theorem reachableStatesMeetTheInvariant : Obligations.ReachableStatesMeetTheInvariant := by
  intro s reachable
  induction reachable with
  | start c legal => exact ⟨State.resetOf_inv legal, .inl rfl⟩
  | turns s ts _ ih => exact ⟨ih.1.with_turns ts, ih.2⟩
  | step s t _ run ih =>
    exact ⟨everyStepKeepsTheInvariant s t ih.1 run, everyStepKeepsHexLowercase s t ih.2 run⟩

end Sys2Proof.Machine
end

section
/-! PROOFS. Which command writes which element, and which event changes STATUS, HEX, W and PENDING (10_state.md,
sections 2 to 4 and 7). -/

namespace Sys2Proof.Machine

/-! ## The writers of each element, among the commands -/

section
variable {i : Instr} {s u : State} (finishes : s.Finishes i u)
include finishes

theorem State.Finishes.msgByte_kept (other : i ∉ [Instr.pad, .digest]) (k : Nat) : u.msgByte k = s.msgByte k := by
  cases finishes with
  | pad | digest => simp at other
  | _ => rfl

theorem State.Finishes.hex_kept (other : i ∉ [Instr.format, .digest, .sreset]) : u.hex = s.hex := by
  cases finishes with
  | format | digest | sreset => simp at other
  | _ => rfl

theorem State.Finishes.h_kept (other : i ∉ [Instr.init, .fold, .compress, .digest, .sreset]) : u.h = s.h := by
  cases finishes with
  | init | fold | compress | digest | sreset => simp at other
  | _ => rfl

theorem State.Finishes.w_kept (other : i ∉ [Instr.sched, .compress, .digest, .sreset]) : u.w = s.w := by
  cases finishes with
  | sched | compress | digest | sreset => simp at other
  | _ => rfl

theorem State.Finishes.wv_kept (other : i ∉ [Instr.wvload, .compress, .digest, .sreset])
    (no_round : ∀ n, i ≠ .round n) : u.wv = s.wv := by
  cases finishes with
  | wvload | compress | digest | sreset => simp at other
  | round => exact absurd rfl (no_round _)
  | _ => rfl

theorem State.Finishes.padding_kept (other : i ∉ [Instr.pad, .digest, .sreset]) :
    u.nblk = s.nblk ∧ u.padded = s.padded := by
  cases finishes with
  | pad | digest | sreset => simp at other
  | _ => exact ⟨rfl, rfl⟩

theorem State.Finishes.blkIdx_kept (other : i ∉ [Instr.init, .pad, .fold, .compress, .digest, .sreset]) :
    u.blkIdx = s.blkIdx := by
  cases finishes with
  | init | pad | fold | compress | digest | sreset => simp at other
  | _ => rfl

theorem State.Finishes.roundCtr_kept (quiet : i ∈ [Instr.nop, .format]) : u.roundCtr = s.roundCtr := by
  cases finishes with
  | nop | format => rfl
  | _ => simp at quiet

theorem State.Finishes.phase_kept (quiet : i ∈ [Instr.nop, .format] ∨ ∃ n, i = .round n) : u.phase = s.phase := by
  cases finishes with
  | nop | format | round => rfl
  | _ => simp at quiet

theorem State.Finishes.control_kept (other : i ≠ .sreset) :
    u.msgLen = s.msgLen ∧ u.doneIe = s.doneIe ∧ u.ovr = s.ovr ∧ u.pending = s.pending := by
  cases finishes with
  | sreset => exact absurd rfl other
  | _ => exact ⟨rfl, rfl, rfl, rfl⟩

/-- The padding starts right after the Message. -/
theorem State.Finishes.message_kept (k : Nat) (inside : k < s.msgLen.toNat) : u.msgByte k = s.msgByte k := by
  have before_padding : s.paddedState.msgByte k = s.msgByte k := by
    rw [State.paddedState_msgByte, if_neg (by omega)]
  cases finishes with
  | pad | digest => exact before_padding
  | _ => rfl

theorem State.Finishes.frame :
    u.cfg = s.cfg ∧ u.msgEpoch = s.msgEpoch ∧ u.draws = s.draws ∧ u.turns = s.turns ∧ u.replies = s.replies := by
  cases finishes <;> exact ⟨rfl, rfl, rfl, rfl, rfl⟩

end

/-- Settles O20: a raised error writes none of these elements, and completion none either. -/
theorem onlyTheNamedCommandsWrite : Obligations.OnlyTheNamedCommandsWrite := by
  intro i s t run
  rcases exec_raises_or_finishes_with run with ⟨c, -, rfl⟩ | ⟨u, finishes, rfl⟩
  · exact ⟨fun _ _ => rfl, fun _ => rfl, fun _ => rfl, fun _ => rfl, fun _ => rfl, fun _ => ⟨rfl, rfl⟩, fun _ => rfl,
      fun _ => rfl, fun _ => rfl, fun _ => ⟨rfl, rfl, rfl, rfl⟩, fun _ _ => rfl, rfl, rfl, rfl, rfl, rfl⟩
  · exact ⟨finishes.msgByte_kept, finishes.hex_kept, finishes.h_kept, finishes.w_kept,
      fun ⟨other, no_round⟩ => finishes.wv_kept other no_round, finishes.padding_kept, finishes.blkIdx_kept,
      finishes.roundCtr_kept, finishes.phase_kept, finishes.control_kept, finishes.message_kept, finishes.frame⟩

/-! ## The writers of each element, among the completions -/

/-- An element changed by a completion names its writer: the command of PENDING. -/
theorem State.writer_of_completion {α : Type} {writers : List Instr} {element : State → α} {s t : State}
    (run : s.completion = .next t) (changed : element t ≠ element s)
    (kept : ∀ {i : Instr} {u : State}, s.Finishes i u → i ∉ writers → element (u.complete .ok) = element s)
    (raised : ∀ c, element (s.complete c) = element s) : ∃ i ∈ writers, decode s.pending = .ok i := by
  rcases State.completion_cases run with ⟨i, decoded, run⟩ | rfl
  · refine ⟨i, ?_, decoded⟩
    by_contra other
    rcases exec_raises_or_finishes_with run with ⟨c, -, rfl⟩ | ⟨u, finishes, rfl⟩
    · exact changed (raised c)
    · exact changed (kept finishes other)
  · exact absurd (raised .illegal) changed

theorem State.completion_hex_writer {s t : State} {ts : List Turn}
    (run : State.completion { s with turns := ts } = .next t) (changed : t.hex ≠ s.hex) :
    decode s.pending = .ok .format ∨ decode s.pending = .ok .digest ∨ decode s.pending = .ok .sreset := by
  obtain ⟨i, writer, decoded⟩ :=
    State.writer_of_completion (s := { s with turns := ts }) (element := State.hex) run changed
      State.Finishes.hex_kept fun _ => rfl
  simpa [decoded] using writer

theorem State.completion_w_writer {s t : State} {ts : List Turn}
    (run : State.completion { s with turns := ts } = .next t) (changed : t.w ≠ s.w) :
    decode s.pending = .ok .sched ∨ decode s.pending = .ok .compress ∨ decode s.pending = .ok .digest ∨
      decode s.pending = .ok .sreset := by
  obtain ⟨i, writer, decoded⟩ :=
    State.writer_of_completion (s := { s with turns := ts }) (element := State.w) run changed
      State.Finishes.w_kept fun _ => rfl
  simpa [decoded] using writer

theorem State.completion_pending_writer {s t : State} {ts : List Turn}
    (run : State.completion { s with turns := ts } = .next t) (changed : t.pending ≠ s.pending) :
    decode s.pending = .ok .sreset := by
  have kept {i : Instr} {v u : State} (finishes : v.Finishes i u) (other : i ∉ [Instr.sreset]) :
      u.pending = v.pending := by
    obtain ⟨-, -, -, pending⟩ := finishes.control_kept (by simpa using other)
    exact pending
  obtain ⟨i, writer, decoded⟩ :=
    State.writer_of_completion (s := { s with turns := ts }) (element := State.pending) run changed kept fun _ => rfl
  rwa [List.mem_singleton.1 writer] at decoded

/-- PAD and DIGEST leave PADDED = 1, SRESET leaves it 0. -/
theorem State.completion_padded_writer {s t : State} {ts : List Turn}
    (run : State.completion { s with turns := ts } = .next t) (changed : t.padded ≠ s.padded) :
    (t.padded = true ∧ (decode s.pending = .ok .pad ∨ decode s.pending = .ok .digest)) ∨
      (t.padded = false ∧ decode s.pending = .ok .sreset) := by
  obtain ⟨i, writer, decoded⟩ :=
    State.writer_of_completion (s := { s with turns := ts }) (element := State.padded) run changed
      (fun finishes other => (finishes.padding_kept other).2) fun _ => rfl
  rw [State.completion_of_decode (s := { s with turns := ts }) decoded] at run
  rcases exec_raises_or_finishes_with run with ⟨c, -, rfl⟩ | ⟨u, finishes, rfl⟩
  · exact absurd rfl changed
  · cases finishes with
    | pad => exact .inl ⟨rfl, .inl decoded⟩
    | digest => exact .inl ⟨rfl, .inr decoded⟩
    | sreset => exact .inr ⟨rfl, decoded⟩
    | _ => simp at writer

theorem State.completion_busy_done {s t : State} (run : s.completion = .next t) : t.busy = false ∧ t.done = true := by
  obtain ⟨busy, done, -⟩ := errorsChangeNothing .nop s t (.inr run)
  exact ⟨busy, done⟩

/-! ## The events of a step -/

/-- Serving a transaction never writes ERR. -/
theorem State.serve_err (s : State) (x : BusTxn) : (s.serve x).err = s.err := by
  cases x with
  | read addr size => rw [State.serve, s.serveRead_frame]
  | write addr size v =>
    rw [State.serve]
    rcases s.serveWrite_cases addr size v with ⟨-, e⟩ | ⟨_, -, -, -, e⟩ | ⟨r, -, -, e⟩ <;> rw [e]
    · rfl
    · rfl
    · cases r <;> rfl

/-- An issue: the write to CTRL that BUSY = 0 lets through (R220). -/
def State.Issues (s t : State) : Prop :=
  ∃ (rest : List Turn) (v : Word), s.busy = false ∧ s.turns = .host (.write s.cfg.base .word v) :: rest ∧
    t.busy = true ∧ t.done = false ∧ t.padded = s.padded ∧ t.pending = v

/-- Any other turn of the host, and an idle turn: DONE changes by a write to STATUS, PADDED by a write to MSG_LEN. -/
def State.Stays (s t : State) : Prop :=
  t.busy = s.busy ∧ t.pending = s.pending ∧
    (t.done = s.done ∨ ∃ (rest : List Turn) (v : Word),
      s.turns = .host (.write (s.cfg.base + 0x004) .word v) :: rest ∧ t.done = (s.done && !v.getLsbD 1)) ∧
    (t.padded = s.padded ∨ ∃ (rest : List Turn) (v : Word), s.busy = false ∧
      s.turns = .host (.write (s.cfg.base + 0x00C) .word v) :: rest ∧ t.padded = false)

theorem State.serve_issues_or_stays {s : State} {x : BusTxn} {rest : List Turn} (list : s.turns = .host x :: rest) :
    s.Issues ({ s with turns := rest }.serve x) ∨ s.Stays ({ s with turns := rest }.serve x) := by
  cases x with
  | read addr size =>
    rw [State.serve, State.serveRead_frame]
    exact .inr ⟨rfl, rfl, .inl rfl, .inl rfl⟩
  | write addr size v =>
    rw [State.serve]
    rcases State.serveWrite_cases { s with turns := rest } addr size v with ⟨-, e⟩ | ⟨_, -, -, -, e⟩ |
      ⟨r, target, unlocked, e⟩ <;> rw [e]
    · exact .inr ⟨rfl, rfl, .inl rfl, .inl rfl⟩
    · exact .inr ⟨rfl, rfl, .inl rfl, .inl rfl⟩
    · cases r with
      | ctrl =>
        obtain ⟨rfl, rfl⟩ := accessTarget_write_ctrl target
        exact .inl ⟨rest, v, by simpa [lockedTarget] using unlocked, list, rfl, rfl, rfl, rfl⟩
      | status =>
        obtain ⟨rfl, rfl⟩ := accessTarget_write_status target
        exact .inr ⟨rfl, rfl, .inr ⟨rest, v, list, rfl⟩, .inl rfl⟩
      | msgLen =>
        obtain ⟨rfl, rfl⟩ := accessTarget_write_msgLen target
        exact .inr ⟨rfl, rfl, .inl rfl, .inr ⟨rest, v, by simpa [lockedTarget] using unlocked, list, rfl⟩⟩
      | _ => exact .inr ⟨rfl, rfl, .inl rfl, .inl rfl⟩

/-- Everything a step can do to STATUS, HEX, W and PENDING, by its event. -/
theorem step_events {s t : State} (run : step s = .next t) :
    (s.CompletesNext ∧ { s with turns := s.turns.tail }.completion = .next t) ∨
    (s.ResetsNext ∧ t = { s with turns := s.turns.tail }.hardReset) ∨
    (t.err = s.err ∧ t.hex = s.hex ∧ t.w = s.w ∧ (s.Issues t ∨ s.Stays t)) := by
  rcases step_agents run with completes | ⟨x, rest, list, rfl⟩ | resets | rfl
  · exact .inl completes
  · obtain ⟨-, -, -, hex, w, -⟩ := State.serve_frame { s with turns := rest } x
    exact .inr (.inr ⟨State.serve_err { s with turns := rest } x, hex, w, State.serve_issues_or_stays list⟩)
  · exact .inr (.inl resets)
  · exact .inr (.inr ⟨rfl, rfl, rfl, .inr ⟨rfl, rfl, .inl rfl, .inl rfl⟩⟩)

/-- The completion that comes next ends BUSY and sets DONE (R222). -/
theorem step_completes {s t : State} (run : step s = .next t) (next : s.CompletesNext) :
    t.busy = false ∧ t.done = true := by
  rw [step_of_completesNext next] at run
  exact State.completion_busy_done run

/-- Settles O21, event by event (`step_events`): a completion, a reset, an issue, or a turn that is none of these. -/
theorem onlyTheNamedEventsChangeTheStatus : Obligations.OnlyTheNamedEventsChangeTheStatus := by
  intro s t run
  have completes := step_completes run
  rcases step_events run with ⟨next, completed⟩ | ⟨resets, rfl⟩ | ⟨err, hex, w, issues | stays⟩
  · obtain ⟨busy, done⟩ := State.completion_busy_done completed
    refine ⟨fun _ rises => (nomatch busy.symm.trans rises), fun _ _ => .inl next, completes, fun _ _ => next,
      fun _ falls => (nomatch done.symm.trans falls), fun _ => .inl next,
      fun changed => .inr ⟨next, State.completion_hex_writer completed changed⟩,
      fun changed => .inr ⟨next, State.completion_w_writer completed changed⟩, fun was is => ?_, fun was is => ?_,
      fun changed => .inr (.inl ⟨next, State.completion_pending_writer completed changed⟩)⟩
    · rcases State.completion_padded_writer completed (by simp [was, is]) with ⟨-, writer⟩ | ⟨falls, -⟩
      · exact ⟨next, writer⟩
      · exact nomatch is.symm.trans falls
    · rcases State.completion_padded_writer completed (by simp [was, is]) with ⟨rises, -⟩ | ⟨-, sreset⟩
      · exact nomatch is.symm.trans rises
      · exact .inr (.inl ⟨next, sreset⟩)
  · exact ⟨nofun, fun _ _ => .inr resets, completes, nofun, fun _ _ => .inl resets, fun _ => .inr resets,
      fun _ => .inl resets, fun _ => .inl resets, nofun, fun _ _ => .inl resets, fun _ => .inl resets⟩
  · obtain ⟨rest, v, idle, list, busy, done, padded, pending⟩ := issues
    exact ⟨fun _ _ => ⟨rest, v, list, pending⟩, fun _ falls => (nomatch busy.symm.trans falls), completes,
      fun _ rises => (nomatch done.symm.trans rises), fun _ _ => .inr ⟨rest, v, .inl ⟨idle, list⟩⟩, absurd err,
      absurd hex, absurd w, fun was is => (nomatch (was.symm.trans padded.symm).trans is),
      fun was is => (nomatch (was.symm.trans padded.symm).trans is), fun _ => .inr (.inr ⟨idle, busy⟩)⟩
  · obtain ⟨busy, pending, done, padded⟩ := stays
    refine ⟨fun was is => (nomatch (was.symm.trans busy.symm).trans is),
      fun was is => (nomatch (was.symm.trans busy.symm).trans is), completes, fun was is => ?_, fun was is => ?_,
      absurd err, absurd hex, absurd w, fun was is => ?_, fun was is => ?_, absurd pending⟩
    · rcases done with kept | ⟨_, _, -, cleared⟩
      · exact nomatch (was.symm.trans kept.symm).trans is
      · simp [was, is] at cleared
    · rcases done with kept | ⟨rest, v, list, cleared⟩
      · exact nomatch (was.symm.trans kept.symm).trans is
      · exact .inr ⟨rest, v, .inr ⟨list, by simpa [was, is] using cleared⟩⟩
    · rcases padded with kept | ⟨-, -, -, -, cleared⟩
      · exact nomatch (was.symm.trans kept.symm).trans is
      · exact nomatch is.symm.trans cleared
    · rcases padded with kept | ⟨rest, v, idle, list, -⟩
      · exact nomatch (was.symm.trans kept.symm).trans is
      · exact .inr (.inr ⟨idle, rest, v, list⟩)

/-! ## The parameters -/

theorem State.completion_cfg {s t : State} (run : s.completion = .next t) : t.cfg = s.cfg := by
  rcases State.completion_cases run with ⟨i, -, run⟩ | rfl
  · rcases exec_cases run with ⟨c, -, rfl⟩ | ⟨u, rfl, cfg, -⟩
    · rfl
    · exact cfg
  · rfl

/-- Settles O19: no agent writes the parameters. -/
theorem noStepChangesTheParameters : Obligations.NoStepChangesTheParameters := by
  intro s t run
  rcases step_agents run with ⟨-, completed⟩ | ⟨x, rest, -, rfl⟩ | ⟨-, rfl⟩ | rfl
  · exact State.completion_cfg (s := { s with turns := s.turns.tail }) completed
  · exact (State.serve_frame { s with turns := rest } x).1
  · rfl
  · rfl

end Sys2Proof.Machine
end

section
/-! PROOFS. Runs end (41_control.md R221), and their outcome (70_reset_and_hazards.md R384). -/

namespace Sys2Proof.Machine

/-! ## The coming turns -/

/-- A step takes the first of the coming turns off the list, and adds none. -/
theorem step_turns {s t : State} (run : step s = .next t) : t.turns = s.turns.tail := by
  rcases step_cases run with ⟨none_left, turn⟩ | ⟨x, rest, list, turn⟩
  · rw [State.take_turns (x := .engine) turn, none_left, List.tail_nil]
  · rw [State.take_turns turn, list, List.tail_cons]

theorem runSteps_turns {n : Nat} {s t : State} (run : runSteps n s = .next t) : t.turns = s.turns.drop n := by
  induction n generalizing s with
  | zero =>
    cases run
    rfl
  | succ n ih =>
    cases first : step s with
    | next u =>
      rw [runSteps_succ first] at run
      rw [ih run, step_turns first, List.drop_tail]
    | fault r => simp [runSteps, first] at run
    | refused r => simp [runSteps, first] at run

/-- From a state of the invariant any number of steps can be taken, and they keep it (R66). -/
theorem State.Inv.runSteps_total {s : State} (inv : s.Inv) (n : Nat) : ∃ t, runSteps n s = .next t ∧ t.Inv := by
  induction n generalizing s with
  | zero => exact ⟨s, rfl, inv⟩
  | succ n ih =>
    obtain ⟨u, first⟩ := noStepStops s inv
    obtain ⟨t, rest, inv_end⟩ := ih (everyStepKeepsTheInvariant s u inv first)
    exact ⟨t, (runSteps_succ first).trans rest, inv_end⟩

/-- With no turn left a step is the engine's. -/
theorem step_of_turns_nil {s : State} (none_left : s.turns = []) : step s = s.engineTurn := by
  rw [step, none_left]

/-- With no turn left a step ends BUSY (R221). -/
theorem State.Inv.step_ends_busy {s : State} (inv : s.Inv) (none_left : s.turns = []) :
    ∃ t, step s = .next t ∧ t.busy = false ∧ t.turns = [] := by
  obtain ⟨t, last⟩ := noStepStops s inv
  refine ⟨t, last, ?_, by rw [step_turns last, none_left, List.tail_nil]⟩
  rw [step_of_turns_nil none_left] at last
  exact State.engineTurn_busy last

theorem State.Inv.runSteps_ends_busy {s : State} (inv : s.Inv) :
    ∃ t, runSteps (s.turns.length + 1) s = .next t ∧ t.busy = false ∧ t.turns = [] := by
  obtain ⟨u, all_turns, inv_u⟩ := inv.runSteps_total s.turns.length
  have none_left : u.turns = [] := by rw [runSteps_turns all_turns, List.drop_length]
  obtain ⟨t, last, ended⟩ := inv_u.step_ends_busy none_left
  exact ⟨t, (runSteps_add all_turns).trans (runSteps_succ last), ended⟩

/-! ## The run of a host program -/

/-- A host program's run ends after its turns, or at the completion that follows if they leave BUSY = 1. -/
theorem hostRun_of_runSteps {s t : State} {ts : List Turn} (run : runSteps ts.length { s with turns := ts } = .next t) :
    hostRun s ts = if t.busy then t.completion else .next t := by
  have none_left : t.turns = [] := by rw [runSteps_turns run, List.drop_length]
  have last : step t = t.engineTurn := step_of_turns_nil none_left
  rw [hostRun, run]
  show (if t.busy then step t else .next t) = _
  rw [last, State.engineTurn]
  split <;> rfl

theorem State.Inv.hostRun_total {s : State} (inv : s.Inv) (ts : List Turn) :
    ∃ t, hostRun s ts = .next t ∧ t.busy = false ∧ t.turns = [] := by
  obtain ⟨u, run, inv_u⟩ := (inv.with_turns ts).runSteps_total ts.length
  have none_left : u.turns = [] := by rw [runSteps_turns run, List.drop_length]
  obtain ⟨t, last, ended⟩ := inv_u.step_ends_busy none_left
  refine ⟨t, ?_, ended⟩
  rw [hostRun_of_runSteps run]
  rw [step_of_turns_nil none_left] at last
  exact last

/-! ## The reads of a run -/

theorem State.outcomeReads_of_replies_kept {s t : State} (kept : t.replies = s.replies) : s.outcomeReads t = [] :=
  State.outcomeReads_of_replies (rs := []) kept

/-- A run of one answer more has at most one read more. -/
theorem State.outcomeReads_of_reply {s t : State} {r : Reply} (one : t.replies = r :: s.replies) :
    s.outcomeReads t = r.readValue.toList := by
  rw [State.outcomeReads_of_replies (rs := [r]) one]
  cases value : r.readValue <;> simp [value]

/-- What the read of one transaction adds to the outcome (R108, R384). -/
def State.readOf (s : State) (addr : Nat) (size : Size) : List Word :=
  if s.busy then []
  else
    match accessTarget s.cfg .read addr size with
    | none => [0]
    | some r => [s.readTarget size r]

/-- A read made while BUSY = 1 adds nothing; made while BUSY = 0 it adds its target's value, or 0 when it has none. -/
theorem State.serve_read_outcome {s u : State} {addr : Nat} {size : Size} (replies : u.replies = s.replies) :
    s.outcomeReads (u.serve (.read addr size)) = u.readOf addr size := by
  cases busy : u.busy with
  | true =>
    obtain ⟨r, reply⟩ := State.serve_replies u (.read addr size)
    rw [replies, busy] at reply
    rw [State.outcomeReads_of_reply reply, State.readOf, busy]
    rfl
  | false =>
    rw [State.readOf, busy]
    cases target : accessTarget u.cfg .read addr size with
    | none =>
      rw [State.serve_read_error target, busy,
        State.outcomeReads_of_reply (r := ⟨false, .readError 0⟩) (by simp [replies])]
      rfl
    | some r =>
      rw [State.serveRead_of_target target (.inl busy), busy,
        State.outcomeReads_of_reply (r := ⟨false, .readOk (u.readTarget size r)⟩) (by simp [replies])]
      rfl

/-- A write adds no read. -/
theorem State.serve_write_outcome {s u : State} {addr : Nat} {size : Size} {v : Word}
    (replies : u.replies = s.replies) : s.outcomeReads (u.serve (.write addr size v)) = [] := by
  have silent {w : State} {b : Bool} {r : Response} (kept : w.replies = s.replies)
      (no_read : Reply.readValue ⟨b, r⟩ = none) : s.outcomeReads (w.answer b r) = [] := by
    rw [State.outcomeReads_of_reply (r := ⟨b, r⟩) (by simp [kept]), no_read]
    rfl
  have no_error (b : Bool) : Reply.readValue ⟨b, .writeError⟩ = none := by cases b <;> rfl
  have no_ok (b : Bool) : Reply.readValue ⟨b, .writeOk⟩ = none := by cases b <;> rfl
  rw [State.serve]
  rcases u.serveWrite_cases addr size v with ⟨-, e⟩ | ⟨_, -, -, -, e⟩ | ⟨r, -, -, e⟩ <;> rw [e]
  · exact silent replies (no_error _)
  · exact silent replies (no_ok _)
  · refine silent ?_ (no_ok _)
    cases r <;> exact replies

/-- The engine answers nobody. -/
theorem State.engineTurn_replies {s t : State} (turn : s.engineTurn = .next t) : t.replies = s.replies := by
  rcases State.engineTurn_cases turn with ⟨-, rfl⟩ | ⟨-, i, -, run⟩ | ⟨-, -, rfl⟩
  · rfl
  · rcases exec_cases run with ⟨c, -, rfl⟩ | ⟨u, rfl, -, -, replies, -⟩
    · rfl
    · exact replies
  · rfl

/-- The reads of one step are those of its turn. -/
theorem step_outcomeReads {s t : State} (run : step s = .next t) :
    s.outcomeReads t =
      match s.turns.head? with
      | some (.host (.read addr size)) => s.readOf addr size
      | _ => [] := by
  rcases step_cases run with ⟨none_left, turn⟩ | ⟨x, rest, list, turn⟩
  · rw [State.outcomeReads_of_replies_kept (State.engineTurn_replies turn), none_left]
    rfl
  · rw [list, List.head?_cons]
    cases x with
    | host x =>
      cases turn
      cases x with
      | read addr size => exact State.serve_read_outcome (u := { s with turns := rest }) rfl
      | write addr size v => exact State.serve_write_outcome (u := { s with turns := rest }) rfl
    | engine =>
      exact State.outcomeReads_of_replies_kept (State.engineTurn_replies (s := { s with turns := rest }) turn)
    | reset =>
      cases turn
      exact State.outcomeReads_of_replies_kept rfl

/-- The answers of two parts of a run follow each other, and so do the reads. -/
theorem runSteps_outcomeReads {m n : Nat} {s t u : State} (first : runSteps m s = .next t)
    (second : runSteps n t = .next u) : s.outcomeReads u = s.outcomeReads t ++ t.outcomeReads u := by
  obtain ⟨rs, first_answers⟩ := runSteps_replies first
  obtain ⟨qs, second_answers⟩ := runSteps_replies second
  have all_answers : u.replies = (qs ++ rs) ++ s.replies := by rw [second_answers, first_answers, List.append_assoc]
  rw [State.outcomeReads_of_replies all_answers, State.outcomeReads_of_replies first_answers,
    State.outcomeReads_of_replies second_answers, List.reverse_append, List.filterMap_append]

/-- Settles O17: a step without a turn ends BUSY, and a run's reads are those of its answers. -/
theorem everyCommandCompletes : Obligations.EveryCommandCompletes := by
  refine ⟨fun s inv => inv.runSteps_ends_busy, fun s ts inv => ?_, fun s t ts => hostRun_of_runSteps,
    fun s t => step_outcomeReads, fun m n s t u => runSteps_outcomeReads⟩
  obtain ⟨t, run, idle, none_left⟩ := inv.hostRun_total ts
  exact ⟨t, run, idle, none_left, rfl⟩

end Sys2Proof.Machine
end

section
/-! PROOFS. What the commands do not look at: BASE, OVR, the coming turns, the answers and the draws. So latency changes
nothing but OVR (41_control.md R229), and BASE only moves the window (00_scope.md R8). -/

namespace Sys2Proof.Machine

/-! ## A change of what no command looks at -/

/-- How to change BASE, OVR, the draws, the coming turns and the answers of a state. -/
structure Unseen where
  base : Nat → Nat := id
  ovr : Bool → Bool := id
  draws : Nat → Nat := id
  turns : List Turn → List Turn := id
  replies : List Reply → List Reply := id

/-- The state with these elements changed, and every other as it was. -/
def State.mapUnseen (f : Unseen) (s : State) : State :=
  { s with
    cfg := { s.cfg with base := f.base s.cfg.base }
    ovr := f.ovr s.ovr, draws := f.draws s.draws, turns := f.turns s.turns, replies := f.replies s.replies }

theorem State.compressAt_mapUnseen (f : Unseen) (s : State) :
    (s.mapUnseen f).compressAt (s.mapUnseen f).blkIdx.toNat =
      (s.compressAt s.blkIdx.toNat).map (State.mapUnseen f) := by
  have read : (s.mapUnseen f).memRead (64 * (s.mapUnseen f).blkIdx.toNat) 64 =
      s.memRead (64 * s.blkIdx.toNat) 64 := rfl
  rw [State.compressAt, State.compressAt, read]
  cases s.memRead (64 * s.blkIdx.toNat) 64 <;> rfl

/-- A command does the same whatever these elements hold, and leaves them as they are; only SRESET writes one of them,
OVR. -/
theorem exec_mapUnseen (f : Unseen) (i : Instr) (s : State) (cleared : i = .sreset → f.ovr false = false) :
    exec i (s.mapUnseen f) = mapNext (State.mapUnseen f) (exec i s) := by
  cases i with
  | nop | init | format => rfl
  | sreset =>
    have kept : (s.mapUnseen f).softReset = s.softReset.mapUnseen f := by
      simp [State.mapUnseen, State.softReset, cleared]
    rw [exec_sreset, exec_sreset, kept]
    rfl
  | pad =>
    rw [exec, exec, execPad_eq, execPad_eq, apply_ite (mapNext _)]
    rfl
  | digest =>
    rw [exec, exec, execDigest_eq, execDigest_eq, apply_ite (mapNext _)]
    rfl
  | wvload =>
    rw [exec, exec, execWvload, execWvload, apply_ite (mapNext _)]
    rfl
  | fold =>
    rw [exec, exec, execFold, execFold, apply_ite (mapNext _)]
    rfl
  | round n =>
    rw [exec, exec, execRound, execRound, apply_ite (mapNext _), apply_ite (mapNext _)]
    rfl
  | sched =>
    have left : (s.mapUnseen f).noBlock = s.noBlock := rfl
    have read : (s.mapUnseen f).memRead (64 * (s.mapUnseen f).blkIdx.toNat) 64 =
      s.memRead (64 * s.blkIdx.toNat) 64 := rfl
    rw [exec, exec, execSched, execSched, apply_ite (mapNext _), left, read]
    cases s.memRead (64 * s.blkIdx.toNat) 64 <;> rfl
  | compress =>
    have left : (s.mapUnseen f).noBlock = s.noBlock := rfl
    rw [exec, exec, execCompress, execCompress, apply_ite (mapNext _), left, s.compressAt_mapUnseen f]
    cases s.compressAt s.blkIdx.toNat <;> rfl

theorem State.completion_mapUnseen (f : Unseen) (s : State)
    (cleared : decode s.pending = .ok .sreset → f.ovr false = false) :
    (s.mapUnseen f).completion = mapNext (State.mapUnseen f) s.completion := by
  unfold State.completion
  have pending : (s.mapUnseen f).pending = s.pending := rfl
  rw [pending]
  cases decoded : decode s.pending with
  | ok i => exact exec_mapUnseen f i s fun sreset => cleared (sreset ▸ decoded)
  | error e => rfl

/-! ## Latency (R229) -/

/-- A transaction that BUSY = 1 keeps from the command can set OVR, draw and answer, no more. -/
theorem State.serve_quiet {s : State} {x : BusTxn} (busy : s.busy = true) (quiet : quietWhileBusy s.cfg x = true) :
    s.serve x = { s with ovr := (s.serve x).ovr, draws := (s.serve x).draws, replies := (s.serve x).replies } := by
  cases x with
  | read addr size =>
    rw [State.serve, s.serveRead_frame]
  | write addr size v =>
    rw [State.serve]
    rcases s.serveWrite_cases addr size v with ⟨-, error⟩ | ⟨_, -, -, -, dropped⟩ | ⟨r, target, unlocked, -⟩
    · rw [error]
      rfl
    · rw [dropped]
      rfl
    · have locked : lockedTarget r = true := by simpa [quietWhileBusy, target] using quiet
      simp [busy, locked] at unlocked

theorem serveAll_quiet {s : State} {xs : List BusTxn} (busy : s.busy = true)
    (quiet : ∀ x ∈ xs, quietWhileBusy s.cfg x = true) :
    ∃ (o : Bool) (d : Nat) (rs : List Reply), serveAll s xs = { s with ovr := o, draws := d, replies := rs } := by
  induction xs generalizing s with
  | nil => exact ⟨s.ovr, s.draws, s.replies, rfl⟩
  | cons x xs ih =>
    have first := s.serve_quiet busy (quiet x (by simp))
    have busy_after : (s.serve x).busy = true := by rw [first]; exact busy
    have quiet_after : ∀ y ∈ xs, quietWhileBusy (s.serve x).cfg y = true := by
      rw [first]
      exact fun y rest => quiet y (by simp [rest])
    obtain ⟨o, d, rs, all⟩ := ih busy_after quiet_after
    refine ⟨o, d, rs, all.trans ?_⟩
    rw [first]

/-- Settles O18: the transactions change what the completion does not look at (`serveAll_quiet`,
`State.completion_mapUnseen`); SRESET clears OVR whatever it was. -/
theorem latencyDoesNotChangeTheResult : Obligations.LatencyDoesNotChangeTheResult := by
  intro s t xs busy quiet run
  obtain ⟨o, d, rs, served⟩ := serveAll_quiet busy quiet
  rw [served]
  refine ⟨busy, ?_⟩
  by_cases sreset : decode s.pending = .ok .sreset
  · rw [State.completion_of_decode sreset] at run
    obtain rfl := finish_eq_next.1 run
    exact ⟨_, State.completion_of_decode (s := { s with ovr := o, draws := d, replies := rs }) sreset, rfl⟩
  · have changed := State.completion_mapUnseen { ovr := fun _ => o, draws := fun _ => d, replies := fun _ => rs } s
      (absurd · sreset)
    rw [run] at changed
    exact ⟨_, changed, rfl⟩

/-! ## The place of the window (R8) -/

/-- The change that puts the window at `b`, and the coming turns with it. -/
def Unseen.moved (b : Nat) (f : List Turn → List Turn) : Unseen := { base := fun _ => b, turns := f }

theorem State.readTarget_moved (s : State) (b : Nat) (f : List Turn → List Turn) (size : Size) (r : Region) :
    (s.mapUnseen (.moved b f)).readTarget size r = s.readTarget size r := by
  cases r <;> rfl

/-- The same transaction by its offset is served the same in another window. -/
theorem State.serve_moved (s : State) (b : Nat) (f : List Turn → List Turn) (x : BusTxn) :
    (s.mapUnseen (.moved b f)).serve (x.atBase b) = (s.serve (x.atBase s.cfg.base)).mapUnseen (.moved b f) := by
  cases x with
  | read off size =>
    have target : accessTarget (s.mapUnseen (.moved b f)).cfg .read (b + off) size =
        accessTarget s.cfg .read (s.cfg.base + off) size := accessTarget_base s.cfg b s.cfg.base off .read size
    show State.serveRead _ _ _ = (s.serveRead _ _).mapUnseen _
    rw [State.serveRead, State.serveRead, target]
    cases accessTarget s.cfg .read (s.cfg.base + off) size with
    | none => rfl
    | some r =>
      simp only [State.readTarget_moved]
      show (if s.busy && volatileTarget r then _ else _) = _
      rw [apply_ite (State.mapUnseen _)]
      rfl
  | write off size v =>
    have target : accessTarget (s.mapUnseen (.moved b f)).cfg .write (b + off) size =
        accessTarget s.cfg .write (s.cfg.base + off) size := accessTarget_base s.cfg b s.cfg.base off .write size
    show State.serveWrite _ _ _ _ = (s.serveWrite _ _ _).mapUnseen _
    rw [State.serveWrite, State.serveWrite, target]
    cases accessTarget s.cfg .write (s.cfg.base + off) size with
    | none => rfl
    | some r =>
      show (if s.busy && lockedTarget r then _ else _) = _
      rw [apply_ite (State.mapUnseen _)]
      cases r <;> rfl

theorem exec_rebase (s : State) (b : Nat) (i : Instr) : exec i (s.rebase b) = mapNext (·.rebase b) (exec i s) :=
  exec_mapUnseen (.moved b id) i s fun _ => rfl

theorem State.completion_rebase (s : State) (b : Nat) : (s.rebase b).completion = mapNext (·.rebase b) s.completion :=
  State.completion_mapUnseen (.moved b id) s fun _ => rfl

theorem State.engineTurn_moved (s : State) (b : Nat) (f : List Turn → List Turn) :
    (s.mapUnseen (.moved b f)).engineTurn = mapNext (State.mapUnseen (.moved b f)) s.engineTurn := by
  rw [State.engineTurn, State.engineTurn, State.completion_mapUnseen _ _ fun _ => rfl, apply_ite (mapNext _)]
  rfl

/-- The machine with its window at `b'` is the one at `b`, moved. -/
theorem step_placedAt (s : State) (b b' : Nat) (ts : List Turn) :
    step (s.placedAt b' ts) = mapNext (·.placedAt b' ts.tail) (step (s.placedAt b ts)) := by
  cases ts with
  | nil => exact (s.placedAt b []).engineTurn_moved b' fun _ => []
  | cons x rest =>
    cases x with
    | host x =>
      exact congrArg Host.Outcome.next ((s.placedAt b rest).serve_moved b' (fun _ => rest.map (Turn.atBase b')) x)
    | engine => exact (s.placedAt b rest).engineTurn_moved b' fun _ => rest.map (Turn.atBase b')
    | reset => rfl

theorem runSteps_placedAt (n : Nat) (s : State) (b b' : Nat) (ts : List Turn) :
    runSteps n (s.placedAt b' ts) = mapNext (·.placedAt b' (ts.drop n)) (runSteps n (s.placedAt b ts)) := by
  induction n generalizing s ts with
  | zero => rfl
  | succ n ih =>
    have moved := step_placedAt s b b' ts
    have in_place := step_placedAt s b b ts
    rw [runSteps, runSteps, moved]
    cases first : step (s.placedAt b ts) with
    | next t =>
      rw [first] at in_place
      have placed : t = t.placedAt b ts.tail := Host.Outcome.next.inj in_place
      show runSteps n (t.placedAt b' ts.tail) = mapNext (·.placedAt b' (ts.drop (n + 1))) (runSteps n t)
      rw [ih, ← placed, List.drop_tail]
    | fault r => rfl
    | refused r => rfl

/-- Settles O58: the targets by their offsets, and what is built from them. -/
theorem baseOnlyMovesTheWindow : Obligations.BaseOnlyMovesTheWindow := by
  refine ⟨fun c b off dir size => ?_, fun _ _ dir size => accessTarget_below dir size, fun s b b' x => ?_, exec_rebase,
    State.completion_rebase, step_placedAt, runSteps_placedAt⟩
  · rw [accessTarget_base c b 0, Nat.zero_add]
  · exact (s.rebase b).serve_moved b' id x

end Sys2Proof.Machine
end

section
/-! PROOFS. COMPRESS and DIGEST, and the laws between commands (44_compression.md R283 to R285, 45_digest.md R311 to
R313, 42_padding.md R241, R242). -/

namespace Sys2Proof.Machine

/-! ## COMPRESS (R283) -/

/-- The invariant keeps every Block below NBLK inside the buffer (R121), so COMPRESS finds one to read. -/
theorem State.Inv.exec_compress {s : State} (inv : s.Inv) (some_left : s.noBlock = false) :
    ∃ b, s.memRead (64 * s.blkIdx.toNat) 64 = some b ∧ exec .compress s = .next ((s.compressWith b).complete .ok) :=
  have read := State.memRead_of_le (inv.block_inside some_left)
  ⟨_, read, execCompress_of_memRead some_left read⟩

theorem State.noBlock_eq_false_iff_toNat (s : State) :
    s.noBlock = false ↔ s.padded = true ∧ s.blkIdx.toNat < s.nblk.toNat := by
  rw [s.noBlock_eq_false, BitVec.lt_def]

/-- Settles O31: H is the fold of H and the last working variables, which is `compressBlock`. -/
theorem compressCompressesTheBlock : Obligations.CompressCompressesTheBlock := by
  refine ⟨by decide, fun s inv => ⟨fun sequence => ?_, fun padded before_end => ?_⟩⟩
  · exact (State.Raises.compress (s.noBlock_iff.2 sequence)).exec_eq
  · obtain ⟨b, read, run⟩ := inv.exec_compress (s.noBlock_eq_false_iff_toNat.2 ⟨padded, before_end⟩)
    obtain ⟨-, bytes⟩ := State.memRead_eq_some.1 read
    refine ⟨(s.compressWith b).complete .ok, b, run, bytes, rfl, fun i => ?_, ?_⟩
    · show (compressBlock s.h b)[i] = _
      rw [compressBlock_eq, foldWords_getElem]
      rfl
    · show (s.blkIdx + 1).toNat = _
      bv_omega

/-! ## DIGEST (R311) -/

/-- Every byte of the buffer after the padding: the Padded Message, then what was there. -/
theorem State.paddedState_msgByte_getD (s : State) (k : Nat) :
    s.paddedState.msgByte k =
      if k < padLen s.msgLen.toNat then (paddedMessage s.cfg.lenMode s.message).getD k 0 else s.msgByte k := by
  split
  · rw [List.getD_eq_getElem?_getD, s.paddedMessage_getElem? k ‹_›, Option.getD_some]
  · rw [s.paddedState_msgByte, if_neg (by omega)]

/-- Settles O33: `State.digestedState` is the state of R311's pseudocode; its buffer is the padded one. -/
theorem digestHashesTheMessage : Obligations.DigestHashesTheMessage :=
  ⟨by decide, fun s => ⟨exec_digest_of_not_fits, fun fits =>
    ⟨s.digestedState.complete .ok, exec_digest_of_fits fits, rfl, s.paddedState_msgByte_getD⟩⟩⟩

/-! ## ROUND N1 then ROUND N2 (R284) -/

/-- Rounds done in two parts, the second from where the first left ROUNDCTR. -/
theorem State.roundBy_add (s : State) (m n : Nat) (c : ResultCode) (small : s.roundCtr.toNat + m ≤ 64) :
    ((s.roundBy m).complete c).roundBy n = (s.roundBy (m + n)).complete c := by
  have counter : (BitVec.ofNat 32 (s.roundCtr.toNat + m)).toNat = s.roundCtr.toNat + m := by
    rw [BitVec.toNat_ofNat]
    omega
  simp only [State.roundBy, State.complete, counter, rounds_add, Nat.add_assoc]

theorem exec_round_of_room {n : BitVec 7} {s : State} (low : 1 ≤ n.toNat) (rounding : s.phase = .rounding)
    (room : s.roundCtr.toNat + n.toNat ≤ 64) : exec (.round n) s = .next ((s.roundBy n.toNat).complete .ok) :=
  execRound_of_legal low (by omega) rounding room

/-- Settles O34: with at most 64 rounds in all, neither ROUNDCTR nor N1 + N2 overflows. -/
theorem roundsSplit : Obligations.RoundsSplit := by
  intro s n1 n2 rounding low1 low2 room
  have sum : (n1 + n2).toNat = n1.toNat + n2.toNat := by
    rw [BitVec.toNat_add]
    omega
  have counter : ((s.roundBy n1.toNat).complete .ok).roundCtr.toNat = s.roundCtr.toNat + n1.toNat := by
    show (BitVec.ofNat 32 _).toNat = _
    rw [BitVec.toNat_ofNat]
    omega
  refine ⟨_, _, exec_round_of_room low1 rounding (by omega), exec_round_of_room low2 rounding (by omega), ?_⟩
  rw [exec_round_of_room (by omega) rounding (by omega), sum, s.roundBy_add _ _ _ (by omega)]
  rfl

/-! ## SCHED, WVLOAD, ROUND 64, FOLD (R285) -/

/-- The four commands' writes are those of COMPRESS. -/
theorem State.step_by_step (s : State) (b : Vector Byte 64) :
    ((((s.schedWith b).complete .ok).seedWv.complete .ok).roundBy 64 |>.complete .ok).foldWv.complete .ok =
      (s.compressWith b).complete .ok := by
  simp only [State.compressWith, State.withBlock, compressBlock_eq]
  rfl

/-- Settles O35: SCHED leaves phase SCHEDULED, WVLOAD phase ROUNDING with ROUNDCTR = 0, ROUND 64 leaves it 64. -/
theorem stepByStepEqualsCompress : Obligations.StepByStepEqualsCompress := by
  intro s inv padded before_end
  have some_left := s.noBlock_eq_false_iff_toNat.2 ⟨padded, before_end⟩
  obtain ⟨b, read, run⟩ := inv.exec_compress some_left
  have under_way : ((s.schedWith b).complete .ok).phase ≠ .empty := nofun
  have first_round : (0 : Word).toNat + (64 : BitVec 7).toNat ≤ 64 := by decide
  refine ⟨_, run, ?_⟩
  refine (runCommands_cons (State.Finishes.sched some_left read).exec_eq).trans ?_
  refine (runCommands_cons (State.Finishes.wvload under_way).exec_eq).trans ?_
  refine (runCommands_cons (exec_round_of_room (by decide) rfl first_round)).trans ?_
  refine (runCommands_cons (State.Finishes.fold rfl rfl).exec_eq).trans ?_
  exact congrArg some (s.step_by_step b)

/-! ## INIT, PAD, one COMPRESS per Block, FORMAT (R312) -/

/-- The state with the sequencer at rest before Block `j`. -/
def State.atBlock (s : State) (j : Nat) : State :=
  { s with blkIdx := BitVec.ofNat 32 j, roundCtr := 0, phase := .empty }

/-- COMPRESS at Block `j` is one turn of DIGEST's loop, and leaves the sequencer before Block `j + 1`. -/
theorem exec_compress_atBlock {v : State} {j : Nat} {b : Vector Byte 64} (padded : v.padded = true)
    (left : j < v.nblk.toNat) (read : v.memRead (64 * j) 64 = some b) :
    exec .compress ((v.atBlock j).complete .ok) = .next (((v.withBlock b).atBlock (j + 1)).complete .ok) := by
  have index : (BitVec.ofNat 32 j).toNat = j := by
    rw [BitVec.toNat_ofNat]
    omega
  have some_left : ((v.atBlock j).complete .ok).noBlock = false := by
    rw [State.noBlock_eq_false_iff_toNat]
    exact ⟨padded, index.trans_lt left⟩
  have read_here : ((v.atBlock j).complete .ok).memRead (64 * (BitVec.ofNat 32 j).toNat) 64 = some b := by
    rw [index]
    exact read
  have next_index : BitVec.ofNat 32 j + 1 = BitVec.ofNat 32 (j + 1) := by rw [BitVec.ofNat_add]; rfl
  refine (State.Finishes.compress some_left read_here).exec_eq.trans ?_
  simp only [State.atBlock, ← next_index]
  rfl

/-- COMPRESS for each of the next `n` Blocks is DIGEST's loop. -/
theorem runCommands_compress {v u : State} {j n : Nat} (padded : v.padded = true) (left : j + n ≤ v.nblk.toNat)
    (loop : v.compressFrom j n = some u) :
    runCommands (List.replicate n .compress) ((v.atBlock j).complete .ok) =
      some ((u.atBlock (j + n)).complete .ok) := by
  induction n generalizing v j with
  | zero =>
    cases loop
    rfl
  | succ n ih =>
    cases first : v.compressAt j with
    | none => simp [State.compressFrom, first] at loop
    | some w =>
      obtain ⟨b, read, rfl⟩ := State.compressAt_eq_some first
      rw [State.compressFrom_succ read] at loop
      rw [List.replicate_succ, runCommands_cons (exec_compress_atBlock padded (by omega) read),
        ih (v := v.withBlock b) padded (by show j + 1 + n ≤ v.nblk.toNat; omega) loop, Nat.add_right_comm,
        Nat.add_assoc]

/-- DIGEST's loop over all Blocks leaves DIGEST's state, but for HEX and the sequencer. -/
theorem State.digest_loop {s : State} (fits : padLen s.msgLen.toNat ≤ s.cfg.msgCap) :
    ∃ u, s.paddedState.loadIv.compressFrom 0 (nblkOf s.msgLen.toNat) = some u ∧
      (u.atBlock (nblkOf s.msgLen.toNat)).formatHex = s.digestedState := by
  have blocks : nblkOf s.msgLen.toNat - 1 + 1 = nblkOf s.msgLen.toNat := Nat.sub_add_cancel (nblkOf_pos _)
  have read : ∀ i, i < 0 + (nblkOf s.msgLen.toNat - 1 + 1) →
      s.paddedState.loadIv.memRead (64 * i) 64 = some (blockOf (paddedMessage s.cfg.lenMode s.message) i) :=
    fun i below => s.paddedState_memRead i (by omega) fits
  have loop := State.compressFrom_chain _ 0 read rfl
  simp only [Nat.zero_add, blocks] at loop
  refine ⟨_, loop, ?_⟩
  simp only [State.digestedState, digestWords, State.message_length]
  rfl

/-- Settles O36: after INIT and PAD the state is the one DIGEST's loop starts from; the COMPRESS commands are
the loop. -/
theorem digestEqualsTheCommandSequence : Obligations.DigestEqualsTheCommandSequence := by
  intro s fits legal
  refine ⟨_, exec_digest_of_fits fits, ?_⟩
  obtain ⟨u, loop, digested⟩ := State.digest_loop fits
  have blocks : s.paddedState.loadIv.nblk.toNat = nblkOf s.msgLen.toNat := nblkOf_toNat legal fits
  have pad := exec_pad_of_fits (s := s.loadIv.complete .ok) fits
  have compress := runCommands_compress (v := s.paddedState.loadIv) rfl (by omega) loop
  have format := exec_format ((u.atBlock (0 + nblkOf s.msgLen.toNat)).complete .ok)
  have start : (s.loadIv.complete .ok).paddedState.complete .ok = (s.paddedState.loadIv.atBlock 0).complete .ok := rfl
  rw [runCommands_append, runCommands_append, runCommands_cons (exec_init s), runCommands_cons pad, start, runCommands,
    Option.bind_some, compress, Option.bind_some, runCommands_cons format, Nat.zero_add, ← digested]
  rfl

/-! ## DIGEST depends on the Message only (R313) -/

/-- The Message is the bytes below MSG_LEN. -/
theorem State.message_congr {s t : State} (len : t.msgLen = s.msgLen)
    (bytes : ∀ k, k < s.msgLen.toNat → t.msgByte k = s.msgByte k) : t.message = s.message := by
  unfold State.message
  rw [len]
  exact List.map_congr_left fun k inside => bytes k (List.mem_range.1 inside)

theorem State.digestedState_message (s : State) : (s.digestedState.complete .ok).message = s.message := by
  refine State.message_congr rfl fun k inside => ?_
  show s.paddedState.msgByte k = _
  rw [s.paddedState_msgByte, if_neg (by omega)]

/-- Settles O37: H and HEX are functions of the Message and the length mode, and DIGEST changes neither. -/
theorem digestDependsOnTheMessageOnly : Obligations.DigestDependsOnTheMessageOnly := by
  intro s s' t t' message mode fits fits' run run'
  obtain rfl := Host.Outcome.next.inj ((exec_digest_of_fits fits).symm.trans run)
  obtain rfl := Host.Outcome.next.inj ((exec_digest_of_fits fits').symm.trans run')
  have words : digestWords s.cfg.lenMode s.message = digestWords s'.cfg.lenMode s'.message := by rw [message, mode]
  have again : digestWords s.cfg.lenMode (s.digestedState.complete .ok).message =
      digestWords s.cfg.lenMode s.message := by
    rw [s.digestedState_message]
  exact ⟨words, congrArg hexDigest words, _, exec_digest_of_fits (s := s.digestedState.complete .ok) fits, again,
    congrArg hexDigest again⟩

/-! ## PAD again, and the buffer after it (R241, R242) -/

/-- The same bytes written again at the same place leave the same canonical buffer. -/
theorem State.paddedState_complete_idem {s : State} (wf : Memory.wf s.mem) (c : ResultCode) :
    (s.paddedState.complete c).paddedState.complete c = s.paddedState.complete c := by
  simp only [State.paddedState, State.complete, Memory.writeBytes_twice _ _ wf]

/-- Settles O38: PAD leaves MSG_LEN, so PAD again writes the same padding. -/
theorem padIsIdempotent : Obligations.PadIsIdempotent := by
  intro s t wf fits run
  obtain rfl := Host.Outcome.next.inj ((exec_pad_of_fits fits).symm.trans run)
  rw [exec_pad_of_fits (s := s.paddedState.complete .ok) fits, State.paddedState_complete_idem wf]

/-- Settles O39: NBLK counts the Blocks of the Padded Message, which is in the buffer byte by byte. -/
theorem paddedBufferIsThePaddedMessage : Obligations.PaddedBufferIsThePaddedMessage := by
  intro s t fits legal run
  obtain rfl := Host.Outcome.next.inj ((exec_pad_of_fits fits).symm.trans run)
  have blocks : (s.paddedState.complete .ok).nblk.toNat = nblkOf s.msgLen.toNat := nblkOf_toNat legal fits
  have length := padLen_eq s.msgLen.toNat
  rw [blocks, paddedMessage_length, s.message_length]
  exact ⟨length.symm, fun k inside => s.paddedMessage_getElem? k (by omega), fun j below =>
    s.paddedState_memRead j below fits⟩

end Sys2Proof.Machine
end

section
/-! PROOFS. The two renderings of the State, the two length modes, and the constant tables (40_datapath.md R176, R177,
R180, R189 to R193). -/

namespace Sys2Proof.Machine

/-! ## The hexadecimal Digest determines the State (R193) -/

theorem hexChar_injective : Function.Injective hexChar := by
  intro m n chars
  have numbers := congrArg BitVec.toNat chars
  have := m.isLt
  have := n.isLt
  rw [hexChar_toNat, hexChar_toNat] at numbers
  refine BitVec.eq_of_toNat_eq ?_
  split at numbers <;> split at numbers <;> omega

/-- Bit `i` of a word lies in its nibble 7 − i/4. -/
theorem getLsbD_eq_nibbleOfWord (v : Word) {i : Nat} (bit : i < 32) :
    v.getLsbD i = (nibbleOfWord v (7 - i / 4)).getLsbD (i % 4) := by
  have place : 28 - 4 * (7 - i / 4) + i % 4 = i := by omega
  rw [nibbleOfWord, BitVec.getLsbD_extractLsb', place]
  simp [Nat.mod_lt]

/-- A word is its eight nibbles. -/
theorem word_ext_nibbles {v w : Word} (nibbles : ∀ k, k < 8 → nibbleOfWord v k = nibbleOfWord w k) : v = w := by
  refine BitVec.eq_of_getLsbD_eq fun i bit => ?_
  rw [getLsbD_eq_nibbleOfWord v bit, getLsbD_eq_nibbleOfWord w bit, nibbles _ (by omega)]

theorem hexDigest_injective : Function.Injective hexDigest := by
  intro h h' strings
  refine Vector.ext fun i inside => word_ext_nibbles fun k small => hexChar_injective ?_
  rw [← Fin.getElem_fin h ⟨i, inside⟩]
  have at_h := hexDigest_getElem!_nibble h ⟨i, inside⟩ small
  have at_h' := hexDigest_getElem!_nibble h' ⟨i, inside⟩ small
  rw [strings] at at_h
  exact at_h.symm.trans at_h'

/-- Settles O46: each character is one of 16, and they determine the nibbles of the State. -/
theorem hexDigestIsInjective : Obligations.HexDigestIsInjective :=
  ⟨hexDigest_lowercase, fun _ _ strings => hexDigest_injective strings⟩

/-! ## The binary Digest (R191) -/

theorem binaryDigest_getElem! (h : Vector Word 8) (i : Fin 8) {k : Nat} (small : k < 4) :
    (binaryDigest h)[4 * i.val + k]! = byteOfWord h[i] k := by
  have inside : 4 * i.val + k < 32 := by omega
  have word : (4 * i.val + k) / 4 = i.val := by omega
  have byte : (4 * i.val + k) % 4 = k := by omega
  rw [getElem!_pos (binaryDigest h) _ inside]
  simp [binaryDigest, word, byte]

/-- The two digits of byte `m` of a word are its nibbles 2m and 2m + 1. -/
theorem nibbleOfWord_of_byte (v : Word) {m : Nat} (small : m < 4) :
    nibbleOfWord v (2 * m) = BitVec.ofNat 4 ((byteOfWord v m).toNat / 16) ∧
      nibbleOfWord v (2 * m + 1) = BitVec.ofNat 4 ((byteOfWord v m).toNat % 16) := by
  have high : 28 - 4 * (2 * m) = (24 - 8 * m) + 4 := by omega
  have low : 28 - 4 * (2 * m + 1) = 24 - 8 * m := by omega
  constructor <;> refine BitVec.eq_of_toNat_eq ?_ <;>
    rw [nibbleOfWord_toNat, BitVec.toNat_ofNat, byteOfWord_toNat]
  · rw [high, pow_add, ← Nat.div_div_eq_div_mul]
    omega
  · rw [low]
    omega

/-- Settles O47: both renderings take the words of the State from the most significant end. -/
theorem binaryDigestIsTheStateInBytes : Obligations.BinaryDigestIsTheStateInBytes := by
  refine fun h => ⟨fun i k small => ?_, fun i => ?_, fun j inside => ?_⟩
  · rw [binaryDigest_getElem! h i small, byteOfWord_toNat]
    rfl
  · have byte : ∀ k, k < 4 → (binaryDigest h)[4 * i.val + k]! = byteOfWord h[i] k := fun _ => binaryDigest_getElem! h i
    rw [← be32_bytes h[i], ← byte 0 (by decide), ← byte 1 (by decide), ← byte 2 (by decide), ← byte 3 (by decide)]
    rfl
  · obtain ⟨high, low⟩ := nibbleOfWord_of_byte h[j / 4] (m := j % 4) (by omega)
    have byte := binaryDigest_getElem! h ⟨j / 4, by omega⟩ (k := j % 4) (by omega)
    have digits (k : Nat) (small : k < 8) := hexDigest_getElem!_nibble h ⟨j / 4, by omega⟩ small
    have place : 4 * (j / 4) + j % 4 = j := by omega
    have first : 8 * (j / 4) + 2 * (j % 4) = 2 * j := by omega
    simp only [place] at byte
    rw [byte, ← first]
    exact ⟨(digits _ (by omega)).trans (congrArg hexChar high), (digits _ (by omega)).trans (congrArg hexChar low)⟩

/-! ## The two length modes (R180, R192) -/

theorem lenField_eq_of_small {l : Nat} (small : l ≤ 0x1FFFFFFF) : lenField .ref32 l = lenField .full64 l := by
  refine BitVec.eq_of_toNat_eq ?_
  rw [lenField_ref32_toNat, lenField_full64_toNat]
  omega

/-- Settles O48: the Padded Message depends on the mode by the length field only. -/
theorem digestIsTheSameInBothLengthModes : Obligations.DigestIsTheSameInBothLengthModes := by
  intro m small
  have padded : paddedMessage .ref32 m = paddedMessage .full64 m := by
    rw [paddedMessage, paddedMessage, padBytes, padBytes, lenField_eq_of_small small]
  exact ⟨padded, by rw [digestWords, digestWords, padded]⟩

/-! ## The constant tables (R176, R177) -/

/-- Trial division by the numbers below 18, which decides primality below 18². -/
def trialPrime (n : Nat) : Bool :=
  decide (2 ≤ n) && (List.range 18).all fun m => decide (m < 2) || decide (n ≤ m) || decide (n % m ≠ 0)

theorem prime_iff_trialPrime {n : Nat} (small : n < 18 ^ 2) : n.Prime ↔ trialPrime n = true := by
  have root : Nat.sqrt n < 18 := Nat.sqrt_lt'.2 small
  simp only [trialPrime, Bool.and_eq_true, decide_eq_true_eq, List.all_eq_true, List.mem_range, Bool.or_eq_true]
  constructor
  · intro prime
    refine ⟨prime.two_le, fun m _ => ?_⟩
    by_contra divides
    simp only [not_or, not_lt, not_le, not_not] at divides
    obtain ⟨⟨two_le, below⟩, zero⟩ := divides
    rcases (Nat.dvd_prime prime).1 (Nat.dvd_of_mod_eq_zero zero) with one | self <;> omega
  · rintro ⟨two_le, trial⟩
    refine Nat.prime_def_le_sqrt.2 ⟨two_le, fun m m_two_le m_le divides => ?_⟩
    have m_lt : m < n := m_le.trans_lt (Nat.sqrt_lt_self two_le)
    rcases trial m (by omega) with (h | h) | h
    · omega
    · omega
    · exact h (Nat.mod_eq_zero_of_dvd divides)

/-- The prime found at place `t` by counting is the `t`-th. -/
theorem nth_prime_of_count {t p : Nat} (small : p < 18 ^ 2) (prime : trialPrime p = true)
    (place : Nat.count (trialPrime · = true) p = t) : Nat.nth Nat.Prime t = p := by
  have count : Nat.count Nat.Prime p = Nat.count (trialPrime · = true) p := by
    rw [Nat.count_eq_card_filter_range, Nat.count_eq_card_filter_range]
    refine congrArg Finset.card (Finset.filter_congr fun n below => prime_iff_trialPrime ?_)
    exact (Finset.mem_range.1 below).trans small
  rw [← place, ← count]
  exact Nat.nth_count ((prime_iff_trialPrime small).2 prime)

/-- The first 64 primes. -/
def first64Primes : List Nat := (List.range 312).filter trialPrime

theorem nth_prime_eq {t : Nat} (small : t < 64) : Nat.nth Nat.Prime t = first64Primes.getD t 0 := by
  have places : ∀ u < 64, first64Primes.getD u 0 < 18 ^ 2 ∧ trialPrime (first64Primes.getD u 0) = true ∧
      Nat.count (trialPrime · = true) (first64Primes.getD u 0) = u := by decide +kernel
  obtain ⟨below, prime, place⟩ := places t small
  exact nth_prime_of_count below prime place

/-- K[t] stands between the cubes around the prime, with the whole part of its root in front: that is at most 6. -/
theorem roundConstant_cubes : ∀ t < 64, ∃ a < 7,
    (a * 2 ^ 32 + (roundConstant t).toNat) ^ 3 ≤ first64Primes.getD t 0 * 2 ^ 96 ∧
      first64Primes.getD t 0 * 2 ^ 96 < (a * 2 ^ 32 + (roundConstant t).toNat + 1) ^ 3 := by decide +kernel

/-- IV[i] stands between the squares around the prime: the whole part of its root is at most 4. -/
theorem iv_squares : ∀ i : Fin 8, ∃ a < 5,
    (a * 2 ^ 32 + iv[i].toNat) ^ 2 ≤ first64Primes.getD i 0 * 2 ^ 64 ∧
      first64Primes.getD i 0 * 2 ^ 64 < (a * 2 ^ 32 + iv[i].toNat + 1) ^ 2 := by decide +kernel

/-- Settles O60: the rows are read off, and the primes are found by trial division. -/
theorem constantTablesAreTheRootsOfThePrimes : Obligations.ConstantTablesAreTheRootsOfThePrimes := by
  refine ⟨fun r ks row => ?_, fun t small => ?_, fun i => ?_⟩
  · simp only [List.mem_cons, List.not_mem_nil, or_false, Prod.mk.injEq] at row
    rcases row with ⟨rfl, rfl⟩ | ⟨rfl, rfl⟩ | ⟨rfl, rfl⟩ | ⟨rfl, rfl⟩ |
      ⟨rfl, rfl⟩ | ⟨rfl, rfl⟩ | ⟨rfl, rfl⟩ | ⟨rfl, rfl⟩
    all_goals decide
  · obtain ⟨a, -, cubes⟩ := roundConstant_cubes t small
    rw [nth_prime_eq small]
    exact ⟨a, cubes⟩
  · obtain ⟨a, -, squares⟩ := iv_squares i
    rw [nth_prime_eq (by omega)]
    exact ⟨a, squares⟩

end Sys2Proof.Machine
end

section
/-! PROOFS. The host's writes to MSG and IRQ_EN, repeated writes, and the reads that draw (20_memory.md R104, R111,
R112; 10_state.md R50, R62). -/

namespace Sys2Proof.Machine

/-! ## MSG (R104) -/

theorem accessTarget_write_msgOffset {c : Config} {k : Nat} (inside : k < c.msgCap) {size : Size}
    (aligned : size = .word → k % 4 = 0) (width : size ≠ .half) :
    accessTarget c .write (c.base + 0x1000 + k) size = some (.msg k) := by
  rw [Nat.add_assoc]
  have offset_aligned : size = .word → (0x1000 + k) % 4 = 0 := fun word => by have := aligned word; omega
  exact accessTarget_of_region offset_aligned (regionAt_msg _ k inside) (by simp [admits, width])

/-- Byte `k` of a word as a number is the word divided (R104). -/
theorem byteOfWord_eq_ofNat (v : Word) (k : Nat) : byteOfWord v k = BitVec.ofNat 8 (v.toNat / 2 ^ (24 - 8 * k)) :=
  BitVec.eq_of_toNat_eq (by rw [byteOfWord_toNat, BitVec.toNat_ofNat])

theorem State.writeTarget_msg_word (s : State) (k : Nat) (v : Word) (j : Nat) :
    (s.writeTarget .word v (.msg k)).msgByte j =
      if j = k then byteOfWord v 0 else if j = k + 1 then byteOfWord v 1 else if j = k + 2 then byteOfWord v 2
      else if j = k + 3 then byteOfWord v 3 else s.msgByte j := by
  have length : (laneBytes .word v).length = 4 := rfl
  rw [State.writeTarget, s.msgByte_writeBytes, length]
  by_cases inside : k ≤ j ∧ j < k + 4
  · obtain ⟨d, rfl⟩ := Nat.exists_eq_add_of_le inside.1
    obtain rfl | rfl | rfl | rfl : d = 0 ∨ d = 1 ∨ d = 2 ∨ d = 3 := by omega
    all_goals simp [laneBytes]
  · rw [if_neg inside, if_neg (by omega), if_neg (by omega), if_neg (by omega), if_neg (by omega)]

theorem State.writeTarget_msg_byte (s : State) (k : Nat) (v : Word) (j : Nat) :
    (s.writeTarget .byte v (.msg k)).msgByte j = if j = k then byteOfWord v 3 else s.msgByte j := by
  have length : (laneBytes .byte v).length = 1 := rfl
  have only : k ≤ j ∧ j < k + 1 ↔ j = k := by omega
  rw [State.writeTarget, s.msgByte_writeBytes, length]
  simp only [only]
  split
  · simp [laneBytes, *]
  · rfl

/-- Settles O51: a write inside MSG is performed while BUSY = 0, and stores the word's lanes. -/
theorem msgWritesAreBigEndian : Obligations.MsgWritesAreBigEndian := by
  intro s k v idle legal inside
  constructor
  · intro aligned
    have target := accessTarget_write_msgOffset inside (size := .word) (fun _ => aligned) nofun
    refine ⟨_, State.serveWrite_idle v target idle, rfl, fun j => ?_, ?_⟩
    · rw [State.answer_msgByte, s.writeTarget_msg_word]
      simp only [byteOfWord_eq_ofNat]
      simp
    · simp only [State.answer_msgByte, s.writeTarget_msg_word]
      simpa using be32_bytes v
  · have target := accessTarget_write_msgOffset inside (size := .byte) nofun nofun
    refine ⟨_, State.serveWrite_idle v target idle, rfl, fun j => ?_⟩
    rw [State.answer_msgByte, s.writeTarget_msg_byte, byteOfWord_eq_ofNat]
    simp

/-! ## IRQ_EN (R62) -/

/-- Settles O55: IRQ_EN is not locked, so the write is performed whatever BUSY is. -/
theorem irqEnWriteSetsDoneIe : Obligations.IrqEnWriteSetsDoneIe := by
  intro s v
  rw [State.serveWrite_of_target v (accessTarget_write_irqEnOffset s.cfg) (.inr rfl)]
  have bit : v.getLsbD 0 = decide (v.toNat % 2 = 1) := by
    rw [← BitVec.testBit_toNat, Nat.testBit_zero]
  rw [State.writeTarget, State.writeIrqEn, bit]
  rfl

/-! ## Repeated writes (R112) -/

/-- A write performed again on a state that has taken it, whatever has been answered in between. -/
theorem State.writeTarget_twice {s : State} {size : Size} {v : Word} {r : Region} (wf : Memory.wf s.mem)
    (other : r ≠ .ctrl) (b : Bool) (a : Response) :
    (((s.writeTarget size v r).answer b a).writeTarget size v r).arch = (s.writeTarget size v r).arch := by
  cases r with
  | ctrl => exact absurd rfl other
  | status => simp [State.writeTarget, State.writeStatus, State.answer, State.arch]
  | h i => simp [State.writeTarget, State.answer, State.arch]
  | msg k => simp [State.writeTarget, State.answer, State.arch, Memory.writeBytes_twice _ _ wf]
  | _ => rfl

theorem State.writeTarget_busy {s : State} {size : Size} {v : Word} {r : Region} (other : r ≠ .ctrl) :
    (s.writeTarget size v r).busy = s.busy := by
  cases r with
  | ctrl => exact absurd rfl other
  | _ => rfl

/-- Settles O59: an error or a drop happens again, and a performed write finds its values in place. -/
theorem repeatedWritesAreIdempotent : Obligations.RepeatedWritesAreIdempotent := by
  intro s addr size v wf other
  cases target : accessTarget s.cfg .write addr size with
  | none =>
    rw [State.serve_write_error v target, State.serve_write_error (s := s.answer _ _) v target]
    rfl
  | some r =>
    have no_ctrl : r ≠ .ctrl := fun ctrl => other (by rw [target, ctrl])
    by_cases dropped : s.busy = true ∧ lockedTarget r = true
    · obtain ⟨busy, locked⟩ := dropped
      have again :=
        State.serveWrite_dropped (s := State.answer { s with ovr := true } true .writeOk) v target busy locked
      rw [State.serveWrite_dropped v target busy locked, again]
      rfl
    · have performed : s.busy = false ∨ lockedTarget r = false := by
        simpa [← Bool.not_eq_true, imp_iff_not_or] using dropped
      have cfg : (s.serve (.write addr size v)).cfg = s.cfg := (s.serve_frame _).1
      rw [State.serveWrite_of_target v target performed] at cfg ⊢
      rw [State.serveWrite_of_target v (by rw [cfg]; exact target)
        (by rw [State.answer_busy, State.writeTarget_busy no_ctrl]; exact performed)]
      exact State.writeTarget_twice wf no_ctrl _ _

/-! ## Reads that draw (R50, R111) -/

theorem volatileTarget_of_not_mem {r : Region} (other : r ∉ [Region.ctrl, .status, .irqEn, .capacity, .id]) :
    volatileTarget r = true := by
  cases r with
  | ctrl | status | irqEn | capacity | id => simp at other
  | _ => rfl

/-- A read of a volatile target while BUSY = 1 (R111). -/
theorem State.serve_read_draws {s : State} {addr : Nat} {size : Size} {r : Region} (busy : s.busy = true)
    (target : accessTarget s.cfg .read addr size = some r) (volatile : volatileTarget r = true) :
    s.serve (.read addr size) =
      { s with draws := s.draws + 1 }.answer true (.readOk (drawFor r size s.draws)) := by
  show s.serveRead addr size = _
  rw [State.serveRead, target]
  simp [busy, volatile]

theorem accessTarget_read_roundCtrOffset (c : Config) :
    accessTarget c .read (c.base + 0x018) .word = some .roundCtr :=
  accessTarget_of_region (fun _ => rfl) rfl rfl

/-- Settles O57: the draw for each size is `drawFor`; ROUNDCTR's own value is at most 64 by the invariant. -/
theorem busyVolatileReadsDraw : Obligations.BusyVolatileReadsDraw := by
  refine ⟨fun s addr size r busy target other => ?_, fun s inv => ?_⟩
  · refine ⟨_, s.serve_read_draws busy target (volatileTarget_of_not_mem other), rfl, rfl, rfl, _, rfl, ?_, ?_, ?_⟩
    · rintro rfl not_counter
      exact drawFor_word not_counter s.draws
    · rintro rfl rfl
      exact drawFor_roundCtr_toNat s.draws
    · rintro rfl
      exact drawFor_byte_toNat r s.draws
  · have target := accessTarget_read_roundCtrOffset s.cfg
    cases busy : s.busy with
    | false =>
      rw [State.serveRead_of_target target (.inl busy), busy]
      have small : s.roundCtr.toNat ≤ 64 := inv.round_le
      exact ⟨s.roundCtr, rfl, by omega, fun _ => rfl⟩
    | true =>
      rw [s.serve_read_draws busy target rfl]
      refine ⟨_, rfl, ?_, nofun⟩
      rw [drawFor_roundCtr_toNat]
      omega

end Sys2Proof.Machine
end
